-- ==== Sys2Proof/Word.lean ====
section
/-! DEFINITION. The machine word. Every cell, parameter, operand and port value, and the program counter, is one
64-bit two's-complement signed integer (00_scope.md R5, 10_state.md R23, R27); its signed value is `BitVec.toInt`. -/

namespace Sys2Proof

/-- One cell value (10_state.md R23): 64 bits, read as a signed integer by `BitVec.toInt`. -/
abbrev Word := BitVec 64

end Sys2Proof
end

