-- ==== Sys2Proof/Config.lean ====
section
/-! DEFINITION. What the implementation fixes (00_scope.md R4). The spec decides every open point, so no free value
stands here: each constant is the spec's decided one. `WORD_BITS`, 64, is the width of `Word` (log 8). -/

namespace Sys2Proof.Config

/-- The greatest number of cells, 2^(W-1) - 4 (10_state.md R22, decision D14; log 8). -/
def maxCells : Nat := 2 ^ 63 - 4

/-- The cells of the longest instruction (30_encoding.md R90). -/
def longestInstr : Nat := 4

end Sys2Proof.Config
end

