-- ==== Sys2Proof/Syntax.lean ====
section
/-! DEFINITION. The instructions as data: one constructor of `Instr` per row of spec/opcode_table.json
(30_encoding.md R89). A parameter keeps its mode digit as the decoder read it, legal or not: the decoder extracts the
digits and step 5a judges them (30_encoding.md R83, 40_execution_engine.md R114, R116). -/

namespace Sys2Proof

/-- One decimal digit of the instruction word (00_scope.md R6). -/
abbrev Digit := Fin 10

/-- The addressing modes (30_encoding.md R85): 0 and 1. Digits 2 to 9 name no mode. -/
inductive Mode where
  | position
  | immediate
deriving DecidableEq, Repr

/-- One parameter of an instruction (30_encoding.md R80, R81): the mode digit `m_k` and the raw cell `p_k`. -/
structure Param where
  mode : Digit
  raw : Word
deriving DecidableEq, Repr

/-- The closed set of opcodes (30_encoding.md R89, R91). -/
inductive Opcode where
  | add
  | mult
  | inp
  | out
  | jt
  | jf
  | lt
  | eq
  | halt
deriving DecidableEq, Repr

/-- An instruction (30_encoding.md R86, R89). `a` and `b` are read-class parameters, `dst` is write-class. -/
inductive Instr where
  /-- ADD, opcode 1 (41_arithmetic.md R140). -/
  | add (a b dst : Param)
  /-- MULT, opcode 2 (41_arithmetic.md R141). -/
  | mult (a b dst : Param)
  /-- IN, opcode 3 (42_io.md R150). -/
  | inp (dst : Param)
  /-- OUT, opcode 4 (42_io.md R151). -/
  | out (a : Param)
  /-- JT, opcode 5 (43_jump.md R160). -/
  | jt (a b : Param)
  /-- JF, opcode 6 (43_jump.md R161). -/
  | jf (a b : Param)
  /-- LT, opcode 7 (44_compare.md R170). -/
  | lt (a b dst : Param)
  /-- EQ, opcode 8 (44_compare.md R171). -/
  | eq (a b dst : Param)
  /-- HALT, opcode 99 (45_halt.md R180). -/
  | halt
deriving DecidableEq, Repr

/-- The opcode of an instruction. -/
def Instr.opcode : Instr → Opcode
  | .add _ _ _ => .add
  | .mult _ _ _ => .mult
  | .inp _ => .inp
  | .out _ => .out
  | .jt _ _ => .jt
  | .jf _ _ => .jf
  | .lt _ _ _ => .lt
  | .eq _ _ _ => .eq
  | .halt => .halt

/-- The parameters in parameter order, which is ascending address order (20_memory.md R54). -/
def Instr.params : Instr → List Param
  | .add a b dst => [a, b, dst]
  | .mult a b dst => [a, b, dst]
  | .inp dst => [dst]
  | .out a => [a]
  | .jt a b => [a, b]
  | .jf a b => [a, b]
  | .lt a b dst => [a, b, dst]
  | .eq a b dst => [a, b, dst]
  | .halt => []

end Sys2Proof
end

