-- ==== Sys2Proof/Machine/State.lean ====
section
/-! DEFINITION. The state of one engine instance (10_state.md R20 to R36) as plain data, and the state after reset. -/

namespace Sys2Proof.Machine

/-- The fault reasons, values of `status.reason` (60_exceptions.md R190). -/
inductive FaultReason where
  | outOfBounds
  | invalidOpcode
  | invalidAddressingMode
  | inputExhausted
deriving DecidableEq, Repr

/-- The status register (10_state.md R29). Halted and Faulted are terminal (R30). -/
inductive Status where
  | running
  | halted
  | faulted (reason : FaultReason)
deriving DecidableEq, Repr

/-- The memory array (10_state.md R21 to R23). `size` is N. `cells` lists the cells that are not 0, each a whole 64-bit
cell under its address, addresses strictly rising; an address below `size` that is not listed holds 0 (logs 1 and 2). -/
structure Memory where
  size : Nat
  cells : List (Nat × Word)
deriving DecidableEq, Repr

/-- The entries strictly rise, are not 0 and lie below `n`. -/
def Memory.canonical (n : Nat) : List (Nat × Word) → Bool
  | [] => true
  | (a, v) :: rest => v != 0 && decide (a < n) && rest.all (fun c => decide (a < c.1)) && Memory.canonical n rest

/-- The canonical form of memory, and the bounds on N (10_state.md R22). -/
def Memory.wf (m : Memory) : Bool :=
  decide (1 ≤ m.size) && decide (m.size ≤ Config.maxCells) && Memory.canonical m.size m.cells

/-- One item of the input source (10_state.md R31): an integer numeral, or something that is not one. An integer outside
the 64-bit range counts as malformed at the port (20_memory.md R59, decision D9). -/
inductive InputItem where
  | integer (z : Int)
  | malformed
deriving DecidableEq, Repr

/-- The input source (10_state.md R31, 20_memory.md R59): the items not yet consumed, front first; the cursor, how many
items have been consumed; and whether the source will never supply another item (log 4). -/
structure InputSource where
  pending : List InputItem
  consumed : Nat
  ended : Bool
deriving DecidableEq, Repr

/-- All the state of one instance (10_state.md R20). -/
structure State where
  /-- The memory array M[0..N-1] (R21). -/
  mem : Memory
  /-- The program counter (R26, R27). -/
  pc : Word
  /-- The status register (R29). -/
  status : Status
  /-- The input source (R31). -/
  input : InputSource
  /-- The output log, oldest value first (R31, 20_memory.md R60). -/
  output : List Word
  /-- The model's own field: an IN step is being held in PortRead (20_memory.md R59, R63, 60_exceptions.md R207; log 5). -/
  waiting : Bool
deriving DecidableEq, Repr

/-- Why `step` stops without a next state. -/
inductive Fault where
  /-- Raised by `step` alone, when a step is requested while status is Halted or Faulted (40_execution_engine.md R112,
  60_exceptions.md R195). The machine's state is unchanged. Safe (log 6). No instruction's meaning raises it. -/
  | alreadyTerminated
deriving DecidableEq, Repr

/-- Why an instruction has no meaning in the model. -/
inductive Refusal where
  /-- Raised by an arm of `exec` whose instruction has no meaning yet. Safe. No arm raises it now. -/
  | notModelled (mnemonic : String)
deriving DecidableEq, Repr

/-- The memory of `State.reset`: nothing listed, and the greatest extent the spec allows (log 2). -/
def Memory.blank : Memory := { size := Config.maxCells, cells := [] }

/-- The machine right after reset (10_state.md R34, 70_reset_and_hazards.md R232). The spec's reset is construction from
a program text and an input source, `State.construct` in Construct.lean; here neither is given: the memory lists
nothing (DESIGN CHOICE, log 2) and the input source holds no item and has not ended (DESIGN CHOICE, log 3). -/
def State.reset : State :=
  { mem := Memory.blank
    pc := 0
    status := .running
    input := { pending := [], consumed := 0, ended := false }
    output := []
    waiting := false }

end Sys2Proof.Machine
end

