-- ==== Sys2Proof/Machine/Ops.lean ====
section
/-! DEFINITION. The named operations over memory, ports, program counter and status, among them taking a fault. -/

namespace Sys2Proof.Machine

/-- The answer of every meaning and of `step`. -/
abbrev Answer := Host.Outcome State Fault Refusal

/-! ## Integer values -/

/-- `wrap_W(z)` (00_scope.md R5): the integer reduced modulo 2^64 into the signed range. -/
def wrap (z : Int) : Word := BitVec.ofInt 64 z

/-- The integer lies in the 64-bit signed range (00_scope.md R5). -/
def inWordRange (z : Int) : Bool := decide (-2 ^ 63 ≤ z) && decide (z ≤ 2 ^ 63 - 1)

/-! ## The memory store (20_memory.md R51, R52)

Addresses are exact integers, a cell's signed value or `pc + k`, so no bounds check wraps (40_execution_engine.md R115). -/

/-- The bounds check, the only access control (20_memory.md R51, R66). -/
def Memory.inBounds (m : Memory) (addr : Int) : Bool := decide (0 ≤ addr) && decide (addr < m.size)

/-- What the listed entries give at an address; an unlisted address holds 0. -/
def Memory.lookup : List (Nat × Word) → Nat → Word
  | [], _ => 0
  | (k, v) :: rest, a => if k = a then v else Memory.lookup rest a

/-- Puts a new entry in its place among entries that do not list its address. -/
def Memory.place (a : Nat) (v : Word) : List (Nat × Word) → List (Nat × Word)
  | [] => [(a, v)]
  | (k, w) :: rest => if a < k then (a, v) :: (k, w) :: rest else (k, w) :: Memory.place a v rest

/-- The entries after writing `v` at `a`: 0 is what an unlisted cell holds, so writing 0 removes the entry. -/
def Memory.store (a : Nat) (v : Word) (cells : List (Nat × Word)) : List (Nat × Word) :=
  if v = 0 then cells.filter (fun c => c.1 != a) else Memory.place a v (cells.filter (fun c => c.1 != a))

/-- `MemRead(addr, 1)` (20_memory.md R51); none is OutOfBounds. -/
def Memory.get? (m : Memory) (addr : Int) : Option Word :=
  if m.inBounds addr then some (Memory.lookup m.cells addr.toNat) else none

/-- `MemWrite(addr, 1, v)` (20_memory.md R51); none is OutOfBounds. -/
def Memory.set? (m : Memory) (addr : Int) (v : Word) : Option Memory :=
  if m.inBounds addr then some { m with cells := Memory.store addr.toNat v m.cells } else none

/-- Up to `k` consecutive cells from `addr` on, as many as lie in memory (20_memory.md R54). -/
def Memory.window (m : Memory) (addr : Int) : Nat → List Word
  | 0 => []
  | k + 1 =>
    match m.get? addr with
    | none => []
    | some v => v :: m.window (addr + 1) k

/-! ## The I/O port (20_memory.md R58 to R60) -/

/-- What the port answers a read with (20_memory.md R59). -/
inductive PortAnswer where
  | value (v : Word)
  | exhausted
  | wait
deriving DecidableEq, Repr

/-- The value of a well-formed item; none for a malformed one (20_memory.md R59, decision D9). -/
def InputItem.word? : InputItem → Option Word
  | .integer z => if inWordRange z then some (wrap z) else none
  | .malformed => none

/-- `PortRead()` on the unconsumed items (20_memory.md R59): malformed items are consumed and dropped, the first
well-formed item is consumed and delivered, and at the end of the items the port is exhausted or waits. -/
def portReadFrom (ended : Bool) : List InputItem → Nat → PortAnswer × InputSource
  | [], c => (if ended then .exhausted else .wait, { pending := [], consumed := c, ended := ended })
  | x :: rest, c =>
    match x.word? with
    | some v => (.value v, { pending := rest, consumed := c + 1, ended := ended })
    | none => portReadFrom ended rest (c + 1)

/-- `PortRead()` (20_memory.md R59): the answer and the source after it. -/
def InputSource.read (src : InputSource) : PortAnswer × InputSource :=
  portReadFrom src.ended src.pending src.consumed

/-! ## Updates of the state -/

/-- Memory replaced (by a `MemWrite`). -/
def State.setMem (s : State) (m : Memory) : State := { s with mem := m }

/-- Input source replaced (by a `PortRead`). -/
def State.setInput (s : State) (src : InputSource) : State := { s with input := src }

/-- `PortWrite(v)` (20_memory.md R60): appends to the output log, never waits, never fails. -/
def State.portWrite (s : State) (v : Word) : State := { s with output := s.output ++ [v] }

/-- Step 7, `Advance` (40_execution_engine.md R111, R119): `pc <- pc + cells`, the step's last action. -/
def State.advance (s : State) (cells : Nat) : State := { s with pc := s.pc + BitVec.ofNat 64 cells, waiting := false }

/-- Step 7, `JumpTo(target)` (40_execution_engine.md R119): the target is written as it is, unchecked. -/
def State.jumpTo (s : State) (target : Word) : State := { s with pc := target, waiting := false }

/-- HALT's `status <- Halted` and `Stop` (45_halt.md R180): `pc` is unchanged. -/
def State.stop (s : State) : State := { s with status := .halted, waiting := false }

/-- The step is held in `PortRead` (20_memory.md R59): memory, `pc` and `status` stay (log 5). -/
def State.hold (s : State) : State := { s with waiting := true }

/-- TAKING A FAULT, `raise Fault(reason)` (40_execution_engine.md R120, 60_exceptions.md R196, R198): status becomes
Faulted(reason); `pc` stays at the faulting instruction and memory is untouched; nothing is saved and there is no
handler. There is no return from a fault (60_exceptions.md R199). -/
def State.raise (s : State) (reason : FaultReason) : State := { s with status := .faulted reason, waiting := false }

/-- `raise Fault(reason)` as the end of a step: a next state, in which the machine is Faulted (log 7). -/
def fail (s : State) (reason : FaultReason) : Answer := .next (s.raise reason)

/-- The destination write and the advance past `cells` cells (20_memory.md R62 (5), 40_execution_engine.md R118, R119):
OutOfBounds if the destination is outside memory (60_exceptions.md R191 (d)). -/
def storeAndAdvance (s : State) (addr : Word) (v : Word) (cells : Nat) : Answer :=
  match s.mem.set? addr.toInt v with
  | none => fail s .outOfBounds
  | some m => .next ((s.setMem m).advance cells)

/-! ## Codes of the status register (10_state.md R29, 60_exceptions.md R190, decision D22; log 16) -/

/-- The code of a fault reason. -/
def FaultReason.code : FaultReason → Nat
  | .outOfBounds => 1
  | .invalidOpcode => 2
  | .invalidAddressingMode => 3
  | .inputExhausted => 4

/-- The code of the reply-only error kind AlreadyTerminated, the fifth row of 60_exceptions.md R190: it is no fault
reason and never a value of the status register (R195). -/
def Fault.code : Fault → Nat
  | .alreadyTerminated => 5

/-- The status register's field `state`. -/
def Status.stateCode : Status → Nat
  | .running => 0
  | .halted => 1
  | .faulted _ => 2

/-- The status register's field `reason`: 0 unless the state is Faulted. -/
def Status.reasonCode : Status → Nat
  | .running => 0
  | .halted => 0
  | .faulted r => r.code

end Sys2Proof.Machine
end

