-- ==== Sys2Proof/Machine/Operands.lean ====
section
/-! DEFINITION. Operand forms: the judging of mode digits (step 5a) and operand resolution (step 5b). -/

namespace Sys2Proof.Machine

/-- The mode a digit names (30_encoding.md R85). -/
def modeOf (d : Digit) : Option Mode :=
  if d = 0 then some .position else if d = 1 then some .immediate else none

/-- Step 5a for a read-class parameter: the digit names a mode (30_encoding.md R87). -/
def readModeLegal (p : Param) : Bool := (modeOf p.mode).isSome

/-- Step 5a for a write-class parameter: the digit is 0 (30_encoding.md R87). -/
def writeModeLegal (p : Param) : Bool := modeOf p.mode == some .position

/-- `resolve(mode, raw_value, memory)` (30_encoding.md R88), step 5b for one read-class parameter. -/
def resolve (m : Memory) (p : Param) : Except FaultReason Word :=
  match modeOf p.mode with
  | none => .error .invalidAddressingMode
  | some .immediate => .ok p.raw
  | some .position =>
    match m.get? p.raw.toInt with
    | some v => .ok v
    | none => .error .outOfBounds

/-- Step 5b for two read-class parameters: parameter 1 before parameter 2, both always (40_execution_engine.md R117). -/
def resolveTwo (m : Memory) (a b : Param) : Except FaultReason (Word × Word) :=
  match resolve m a with
  | .error r => .error r
  | .ok va =>
    match resolve m b with
    | .error r => .error r
    | .ok vb => .ok (va, vb)

/-- Steps 5a, 5b and 6 of an instruction of format F2 or F3: all its mode digits are judged first (`legal` is their
conjunction; 40_execution_engine.md R116, decisions D5 and D6, log 11), then both operands are read, then `handler`
runs on their values. -/
def withOperands (legal : Bool) (a b : Param) (s : State) (handler : Word → Word → Answer) : Answer :=
  if legal then
    match resolveTwo s.mem a b with
    | .error r => fail s r
    | .ok (va, vb) => handler va vb
  else fail s .invalidAddressingMode

/-- An instruction of format F3 (30_encoding.md R80): `dst = f(a, b)`, then the advance by 4. -/
def computeAndStore (f : Word → Word → Word) (a b dst : Param) (s : State) : Answer :=
  withOperands (readModeLegal a && readModeLegal b && writeModeLegal dst) a b s
    fun va vb => storeAndAdvance s dst.raw (f va vb) 4

/-- An instruction of format F2 (30_encoding.md R80): jump to `b` where the test of `a` holds, else advance by 3
(40_execution_engine.md R118, R119). -/
def jumpWhen (test : Word → Bool) (a b : Param) (s : State) : Answer :=
  withOperands (readModeLegal a && readModeLegal b) a b s
    fun va vb => .next (if test va then s.jumpTo vb else s.advance 3)

end Sys2Proof.Machine
end

