-- ==== Sys2Proof/Machine/Arithmetic.lean ====
section
/-! DEFINITION. ADD and MULT (41_arithmetic.md). The result is computed exactly and narrowed by `wrap` at the end
(R142; the wrap outside the range is decision D2, log 9). -/

namespace Sys2Proof.Machine

/-- `wrap_W(v_1 + v_2)` (41_arithmetic.md R140, R142). -/
def addValue (a b : Word) : Word := wrap (a.toInt + b.toInt)

/-- `wrap_W(v_1 * v_2)` (41_arithmetic.md R141, R142). -/
def multValue (a b : Word) : Word := wrap (a.toInt * b.toInt)

/-- ADD, opcode 1 (41_arithmetic.md R140). -/
def execAdd (a b dst : Param) (s : State) : Answer := computeAndStore addValue a b dst s

/-- MULT, opcode 2 (41_arithmetic.md R141). -/
def execMult (a b dst : Param) (s : State) : Answer := computeAndStore multValue a b dst s

end Sys2Proof.Machine
end

