-- ==== Sys2Proof/Machine/Flags.lean ====
section
/-! DEFINITION. The machine has no flags (10_state.md R33): a compare delivers the integer 0 or 1 to a memory cell and a
jump tests an operand value. These are the two conversions. -/

namespace Sys2Proof.Machine

/-- A compare's result as a cell value (44_compare.md R170, R171): 1 for true, 0 for false. -/
def truthWord (b : Bool) : Word := if b then 1 else 0

/-- A value taken as a condition (43_jump.md R160): any non-zero value is true. -/
def nonZero (v : Word) : Bool := v != 0

/-- Signed less-than over the whole 64-bit range (44_compare.md R170). -/
def signedLess (a b : Word) : Bool := decide (a.toInt < b.toInt)

end Sys2Proof.Machine
end

