-- ==== Sys2Proof/Machine/Compare.lean ====
section
/-! DEFINITION. LT and EQ (44_compare.md). -/

namespace Sys2Proof.Machine

/-- LT, opcode 7 (44_compare.md R170): the comparison is signed and exact. -/
def execLt (a b dst : Param) (s : State) : Answer :=
  computeAndStore (fun x y => truthWord (signedLess x y)) a b dst s

/-- EQ, opcode 8 (44_compare.md R171): equality of the full values. -/
def execEq (a b dst : Param) (s : State) : Answer :=
  computeAndStore (fun x y => truthWord (x == y)) a b dst s

end Sys2Proof.Machine
end

