-- ==== Sys2Proof/Machine/Halt.lean ====
section
/-! DEFINITION. HALT (45_halt.md). -/

namespace Sys2Proof.Machine

/-- HALT, opcode 99 (45_halt.md R180): status becomes Halted; `pc` stays at the 99 (decision D7, log 12). -/
def execHalt (s : State) : Answer := .next s.stop

end Sys2Proof.Machine
end

