-- ==== Sys2Proof/Machine/InOut.lean ====
section
/-! DEFINITION. IN and OUT (42_io.md). -/

namespace Sys2Proof.Machine

/-- IN, opcode 3 (42_io.md R150). The mode digit is judged before the port is asked (decision D6), the port before the
destination (decision D8, log 11). A port that waits holds the step: `pc`, memory and status stay and the next step
asks the port again (20_memory.md R59; log 5). -/
def execInp (dst : Param) (s : State) : Answer :=
  if writeModeLegal dst then
    match s.input.read with
    | (.wait, src) => .next (s.setInput src).hold
    | (.exhausted, src) => fail (s.setInput src) .inputExhausted
    | (.value v, src) => storeAndAdvance (s.setInput src) dst.raw v 2
  else fail s .invalidAddressingMode

/-- OUT, opcode 4 (42_io.md R151). -/
def execOut (a : Param) (s : State) : Answer :=
  if readModeLegal a then
    match resolve s.mem a with
    | .error r => fail s r
    | .ok v => .next ((s.portWrite v).advance 2)
  else fail s .invalidAddressingMode

end Sys2Proof.Machine
end

