-- ==== Sys2Proof/Machine/Jump.lean ====
section
/-! DEFINITION. JT and JF (43_jump.md). The target is absolute and unchecked (R162); `b` is resolved even when the jump
is not taken (40_execution_engine.md R117). -/

namespace Sys2Proof.Machine

/-- JT, opcode 5 (43_jump.md R160). -/
def execJt (a b : Param) (s : State) : Answer := jumpWhen nonZero a b s

/-- JF, opcode 6 (43_jump.md R161). -/
def execJf (a b : Param) (s : State) : Answer := jumpWhen (fun v => !nonZero v) a b s

end Sys2Proof.Machine
end

