-- ==== Sys2Proof/Machine/Dispatch.lean ====
section
/-! DEFINITION. The dispatch of steps 5a to 7 of the step algorithm (40_execution_engine.md R111, R118; 30_encoding.md
R96): one arm per constructor, each a direct call of the instruction's meaning. -/

namespace Sys2Proof.Machine

-- Steps 1 to 4 (status, pc, opcode, fit) are made by `step` before it calls `exec`.
def exec (i : Instr) (s : State) : Host.Outcome State Fault Refusal :=
  match i with
  | .add a b dst => Sys2Proof.Machine.execAdd a b dst s
  | .mult a b dst => Sys2Proof.Machine.execMult a b dst s
  | .inp dst => Sys2Proof.Machine.execInp dst s
  | .out a => Sys2Proof.Machine.execOut a s
  | .jt a b => Sys2Proof.Machine.execJt a b s
  | .jf a b => Sys2Proof.Machine.execJf a b s
  | .lt a b dst => Sys2Proof.Machine.execLt a b dst s
  | .eq a b dst => Sys2Proof.Machine.execEq a b dst s
  | .halt => Sys2Proof.Machine.execHalt s

end Sys2Proof.Machine
end

