-- ==== Sys2Proof/WellFormed.lean ====
section
/-! DEFINITION. Which instructions are legal: the mode digits of 30_encoding.md R87. An instruction that is not
well formed is still an instruction the decoder can give; executing it takes the InvalidAddressingMode fault. -/

namespace Sys2Proof

/-- A read-class parameter's digit names a mode (30_encoding.md R87). -/
def Param.readOk (p : Param) : Bool := p.mode == 0 || p.mode == 1

/-- A write-class parameter's digit is 0 (30_encoding.md R87): immediate mode on a write target is rejected. -/
def Param.writeOk (p : Param) : Bool := p.mode == 0

/-- Every mode digit of the instruction is legal (30_encoding.md R86, R87). -/
def Instr.wellFormed : Instr → Bool
  | .add a b dst => a.readOk && b.readOk && dst.writeOk
  | .mult a b dst => a.readOk && b.readOk && dst.writeOk
  | .inp dst => dst.writeOk
  | .out a => a.readOk
  | .jt a b => a.readOk && b.readOk
  | .jf a b => a.readOk && b.readOk
  | .lt a b dst => a.readOk && b.readOk && dst.writeOk
  | .eq a b dst => a.readOk && b.readOk && dst.writeOk
  | .halt => true

end Sys2Proof
end

