-- ==== Sys2Proof/Decode.lean ====
section
/-! DEFINITION. The Opcode Decoder and the Instruction Table (30_encoding.md R80 to R92), and after them the encoder.
Decoding is total on any list of cells and rejects by name. The instruction word is read by decimal digits (R81); there
is no bit field. -/

namespace Sys2Proof

/-- Why a list of cells holds no instruction. -/
inductive DecodeError where
  /-- There is no cell at all: `pc` is outside memory (40_execution_engine.md R113). -/
  | noWord
  /-- The word is negative or its opcode is not in the table (30_encoding.md R82, R91). -/
  | invalidOpcode
  /-- The opcode is known and its parameters do not all lie in memory (40_execution_engine.md R115). -/
  | doesNotFit
deriving DecidableEq, Repr

/-- The opcode's number, `raw mod 100` (30_encoding.md R89). -/
def Opcode.number : Opcode → Nat
  | .add => 1
  | .mult => 2
  | .inp => 3
  | .out => 4
  | .jt => 5
  | .jf => 6
  | .lt => 7
  | .eq => 8
  | .halt => 99

/-- The parameter count n of the Instruction Table (30_encoding.md R89). -/
def Opcode.paramCount : Opcode → Nat
  | .add => 3
  | .mult => 3
  | .inp => 1
  | .out => 1
  | .jt => 2
  | .jf => 2
  | .lt => 3
  | .eq => 3
  | .halt => 0

/-- The table's row for the two low digits; every other value is unknown (30_encoding.md R91). -/
def Opcode.ofNumber? : Nat → Option Opcode
  | 1 => some .add
  | 2 => some .mult
  | 3 => some .inp
  | 4 => some .out
  | 5 => some .jt
  | 6 => some .jf
  | 7 => some .lt
  | 8 => some .eq
  | 99 => some .halt
  | _ => none

/-- `digit(raw, i)` of a non-negative value (00_scope.md R6): `(raw div 10^i) mod 10`. -/
def decimalDigit (raw i : Nat) : Digit := Fin.ofNat 10 (raw / 10 ^ i)

/-- The opcode of an instruction word: none for a negative word (30_encoding.md R82, decision D3; log 10) and for an
opcode outside the table (R91). -/
def opcodeOf (raw : Word) : Option Opcode :=
  if raw.toInt < 0 then none else Opcode.ofNumber? (raw.toNat % 100)

/-- Parameter k: its mode digit stands at digit position k + 1 of the word (30_encoding.md R81). -/
def paramOf (raw : Word) (k : Nat) (cell : Word) : Param := ⟨decimalDigit raw.toNat (k + 1), cell⟩

/-- Format F1R and F1W: one parameter. -/
def decodeOne (make : Param → Instr) (raw : Word) : List Word → Except DecodeError (Instr × List Word)
  | p1 :: rest => .ok (make (paramOf raw 1 p1), rest)
  | [] => .error .doesNotFit

/-- Format F2: two parameters. -/
def decodeTwo (make : Param → Param → Instr) (raw : Word) : List Word → Except DecodeError (Instr × List Word)
  | p1 :: p2 :: rest => .ok (make (paramOf raw 1 p1) (paramOf raw 2 p2), rest)
  | _ => .error .doesNotFit

/-- Format F3: three parameters. -/
def decodeThree (make : Param → Param → Param → Instr) (raw : Word) :
    List Word → Except DecodeError (Instr × List Word)
  | p1 :: p2 :: p3 :: rest => .ok (make (paramOf raw 1 p1) (paramOf raw 2 p2) (paramOf raw 3 p3), rest)
  | _ => .error .doesNotFit

/-- The decoder on the cells from the instruction word on: the instruction and the cells after it (30_encoding.md R80,
R81, R83). Digits that belong to no parameter are ignored (R84, decision D4; log 10). -/
def decode : List Word → Except DecodeError (Instr × List Word)
  | [] => .error .noWord
  | raw :: cells =>
    match opcodeOf raw with
    | none => .error .invalidOpcode
    | some .add => decodeThree .add raw cells
    | some .mult => decodeThree .mult raw cells
    | some .inp => decodeOne .inp raw cells
    | some .out => decodeOne .out raw cells
    | some .jt => decodeTwo .jt raw cells
    | some .jf => decodeTwo .jf raw cells
    | some .lt => decodeThree .lt raw cells
    | some .eq => decodeThree .eq raw cells
    | some .halt => .ok (.halt, cells)

/-- The mode digits' part of the instruction word, from digit position `i` up (30_encoding.md R81, R94). -/
def modeDigits : Nat → List Param → Nat
  | _, [] => 0
  | i, p :: ps => p.mode.val * 10 ^ i + modeDigits (i + 1) ps

/-- The instruction word of an instruction, every unused digit 0 (30_encoding.md R89, R94). -/
def instrWord (i : Instr) : Word := BitVec.ofNat 64 (i.opcode.number + modeDigits 2 i.params)

/-- The encoder: the instruction word, then the parameter cells in ascending order (30_encoding.md R80, R94). -/
def encode (i : Instr) : List Word := instrWord i :: i.params.map (·.raw)

/-- The cells of a number whose first cell is bits 63..0, the second bits 127..64, and so on; bits at and above
`nbits` are 0 (log 17). -/
def tableCells (nbits w : Nat) : List Word :=
  (List.range Config.longestInstr).map fun k => BitVec.ofNat 64 (w % 2 ^ nbits / 2 ^ (64 * k))

/-- The instruction the decoder reads from a table word (log 17). -/
def decodeTableWord (nbits w : Nat) : Option Instr :=
  match decode (tableCells nbits w) with
  | .ok (i, _) => some i
  | .error _ => none

end Sys2Proof
end

