-- ==== Sys2Proof/Machine/Fetch.lean ====
section
/-! DEFINITION. Fetching and decoding the instruction at `pc` (steps 2 to 4 of 40_execution_engine.md R111), and laying
a given instruction's cells where the next step fetches. -/

namespace Sys2Proof.Machine

/-- The cells the engine fetches (40_execution_engine.md R114, R115, 20_memory.md R54): those from `pc` on that lie in
memory, at most as many as the longest instruction has. -/
def State.fetchCells (s : State) : List Word := s.mem.window s.pc.toInt Config.longestInstr

/-- The fault of a fetch that gives no instruction: `pc` outside memory (R113), unknown opcode (R114), or an
instruction that does not fit (R115). -/
def fetchFault : DecodeError → FaultReason
  | .noWord => .outOfBounds
  | .invalidOpcode => .invalidOpcode
  | .doesNotFit => .outOfBounds

/-- Steps 2 to 4: the instruction at `pc`, or the fault. Memory is read afresh every time (20_memory.md R65). -/
def State.fetch (s : State) : Except FaultReason Instr :=
  match decode s.fetchCells with
  | .ok (i, _) => .ok i
  | .error e => .error (fetchFault e)

/-- Where a program is placed from outside: at `pc` if the longest instruction fits there, else at 0 (log 17). -/
def State.loadPoint (s : State) : Nat :=
  if 0 ≤ s.pc.toInt ∧ s.pc.toInt + Config.longestInstr ≤ Config.maxCells then s.pc.toNat else 0

/-- Cells written at consecutive addresses. -/
def Memory.storeAll : Nat → List Word → List (Nat × Word) → List (Nat × Word)
  | _, [], cells => cells
  | a, v :: vs, cells => Memory.storeAll (a + 1) vs (Memory.store a v cells)

/-- The state with an instruction's cells loaded where the next step fetches: memory is long enough to hold them, the
machine is Running there and no step is in progress (log 17). -/
def State.load (s : State) (vs : List Word) : State :=
  { s with
    mem := { size := max s.mem.size (s.loadPoint + vs.length), cells := Memory.storeAll s.loadPoint vs s.mem.cells }
    pc := BitVec.ofNat 64 s.loadPoint
    status := .running
    waiting := false }

end Sys2Proof.Machine
end

