-- ==== Sys2Proof/Machine/Step.lean ====
section
/-! DEFINITION. One step of the machine (40_execution_engine.md R111): step 1 here, steps 2 to 4 in `State.fetch`, steps
5a to 7 in `exec`. -/

namespace Sys2Proof.Machine

/-- One `Step` (40_execution_engine.md R111). In a terminal state nothing changes and the reply is AlreadyTerminated
(R112; log 6). -/
def step (s : State) : Host.Outcome State Fault Refusal :=
  match s.status with
  | .running =>
    match s.fetch with
    | .ok i => exec i s
    | .error r => fail s r
  | .halted => .fault .alreadyTerminated
  | .faulted _ => .fault .alreadyTerminated

/-- `s` with the instruction whose cells are `w` stored where `step` fetches next (log 17). -/
def State.withFetchWord (s : State) (nbits w : Nat) : State := s.load (tableCells nbits w)

end Sys2Proof.Machine
end

