-- ==== Sys2Proof/Machine/Construct.lean ====
section
/-! DEFINITION. Construction, the machine's only reset (70_reset_and_hazards.md R230 to R233): the program text's
grammar, and the state made from its integers and an input source. -/

namespace Sys2Proof.Machine

/-! ## Program text (70_reset_and_hazards.md R231; decision D10, log 15) -/

/-- A decimal digit character's value; none for any other character. -/
def digitValue (c : Char) : Option Nat :=
  if '0'.toNat ≤ c.toNat ∧ c.toNat ≤ '9'.toNat then some (c.toNat - '0'.toNat) else none

/-- The value of a run of digits that follows digits of value `acc`. -/
def parseDigits : Nat → List Char → Option Nat
  | acc, [] => some acc
  | acc, c :: cs =>
    match digitValue c with
    | none => none
    | some d => parseDigits (acc * 10 + d) cs

/-- `digit+`: at least one digit. -/
def parseNat : List Char → Option Nat
  | [] => none
  | cs => parseDigits 0 cs

/-- `integer ::= "-"? digit+`. -/
def parseInteger : List Char → Option Int
  | '-' :: cs =>
    match parseNat cs with
    | some n => some (-(n : Int))
    | none => none
  | cs =>
    match parseNat cs with
    | some n => some (n : Int)
    | none => none

/-- The fields between the commas, in order; `field` is the current one. -/
def splitCommas : List Char → List Char → List (List Char)
  | field, [] => [field]
  | field, c :: cs => if c = ',' then field :: splitCommas [] cs else splitCommas (field ++ [c]) cs

/-- `text ::= integer ("," integer)*`, to the integers in order. -/
def parseText (text : List Char) : Option (List Int) := (splitCommas [] text).mapM parseInteger

/-! ## The constructed machine -/

/-- The entries of the cells `vs` from address `a` on: those that are not 0. -/
def Memory.entriesFrom : Nat → List Word → List (Nat × Word)
  | _, [] => []
  | a, v :: vs => if v = 0 then Memory.entriesFrom (a + 1) vs else (a, v) :: Memory.entriesFrom (a + 1) vs

/-- Memory whose cell i is the i-th value (10_state.md R34). -/
def Memory.ofCells (vs : List Word) : Memory := { size := vs.length, cells := Memory.entriesFrom 0 vs }

/-- The machine constructed from the program's cells and an input source (10_state.md R34, 70_reset_and_hazards.md
R232): pc 0, Running, nothing consumed, an empty output log. -/
def State.ofCells (vs : List Word) (items : List InputItem) (ended : Bool) : State :=
  { mem := Memory.ofCells vs
    pc := 0
    status := .running
    input := { pending := items, consumed := 0, ended := ended }
    output := []
    waiting := false }

/-- Construction from program text (70_reset_and_hazards.md R230 to R233); none where construction is refused: bad
text, an integer outside the 64-bit range, or too many integers. -/
def State.construct (text : List Char) (items : List InputItem) (ended : Bool) : Option State :=
  match parseText text with
  | none => none
  | some zs =>
    if zs.all inWordRange && decide (zs.length ≤ Config.maxCells) then
      some (State.ofCells (zs.map wrap) items ended)
    else none

end Sys2Proof.Machine
end

