-- ==== Sys2Proof/Machine/HostInterface.lean ====
section
/-! DEFINITION. The host's commands on a constructed machine (70_reset_and_hazards.md R234, R235, R243;
40_execution_engine.md R122, R123). They stand beside `step`, not inside it: the host moves between steps (20_memory.md
R63; log 14). Observing `pc`, `status` and the output log is reading those fields. -/

namespace Sys2Proof.Machine

/-- What the host is told. -/
inductive Reply where
  /-- GetMemory's value. -/
  | value (v : Word)
  /-- The command was carried out. -/
  | done
  /-- GetMemory or SetMemory outside 0..N-1: an error reply, not a fault (70_reset_and_hazards.md R235). -/
  | outOfBounds
  /-- The status after a step, or the terminal status after a run (40_execution_engine.md R123). -/
  | status (st : Status)
  /-- The step, or the run's step, is held in PortRead: there is no reply yet (20_memory.md R59). -/
  | waiting
  /-- Step or Run in a terminal state (40_execution_engine.md R112, R122). -/
  | alreadyTerminated
  /-- The spec gives the host no such move (70_reset_and_hazards.md R244; 10_state.md R31). -/
  | noMove
  /-- The model's bound on a run was reached with the machine still Running (40_execution_engine.md R124: the machine
  itself has no bound). -/
  | stillRunning
deriving DecidableEq, Repr

/-- The error kind a reply names, by its code (60_exceptions.md R190, R191, R195, decision D22; log 16): a failing host
access is OutOfBounds, a step or run of a terminal machine AlreadyTerminated; every other reply is no error. -/
def Reply.errorCode : Reply → Option Nat
  | .outOfBounds => some FaultReason.outOfBounds.code
  | .alreadyTerminated => some Fault.alreadyTerminated.code
  | .value _ => none
  | .done => none
  | .status _ => none
  | .waiting => none
  | .noMove => none
  | .stillRunning => none

/-- A step is in progress: it is held in PortRead (20_memory.md R59, 60_exceptions.md R207). -/
def State.held (s : State) : Bool := s.status == .running && s.waiting

/-- `GetMemory(addr)` (R235): changes nothing. Not a move while a step is in progress (R244). -/
def hostGet (s : State) (addr : Word) : Reply :=
  if s.waiting then .noMove
  else
    match s.mem.get? addr.toInt with
    | some v => .value v
    | none => .outOfBounds

/-- `SetMemory(addr, value)` (R235): works in every status; outside memory it is an error reply and changes nothing. Not
a move while a step is in progress (R244). -/
def hostSet (s : State) (addr value : Word) : State × Reply :=
  if s.waiting then (s, .noMove)
  else
    match s.mem.set? addr.toInt value with
    | some m => (s.setMem m, .done)
    | none => (s, .outOfBounds)

/-- One step of the machine, begun or, where it is held, going on, with its reply (40_execution_engine.md R111, R123). -/
def stepReply (s : State) : State × Reply :=
  match step s with
  | .next t => (t, if t.waiting then .waiting else .status t.status)
  | .fault .alreadyTerminated => (s, .alreadyTerminated)
  | .refused _ => (s, .noMove)

/-- `Step` (40_execution_engine.md R122, R123): the state after it and the reply. Another step is no move while one is in
progress (70_reset_and_hazards.md R244). -/
def hostStep (s : State) : State × Reply := if s.held then (s, .noMove) else stepReply s

/-- The held step goes on: it asks the port again, and completes, takes InputExhausted or stays held (20_memory.md R59).
It is no command of the host's, and nothing where no step is held. Its form is DESIGN CHOICE (logs 5, 14). -/
def hostResume (s : State) : State × Reply := if s.held then stepReply s else (s, .noMove)

/-- What is told of a run that has stopped at `s`: its terminal status, that a step of it is held, or that the model's
bound was reached. -/
def runReply (s : State) : Reply :=
  if s.status ≠ .running then .status s.status else if s.waiting then .waiting else .stillRunning

/-- The loop of `Run` (40_execution_engine.md R122), at most `fuel` steps, up to a terminal state or a held step. -/
def runLoop : Nat → State → State × Reply
  | 0, s => (s, runReply s)
  | fuel + 1, s => if s.status = .running ∧ s.waiting = false then runLoop fuel (stepReply s).1 else (s, runReply s)

/-- `Run` (40_execution_engine.md R122), bounded by `fuel` (log 14). It is no move while a step is in progress
(70_reset_and_hazards.md R244). DESIGN CHOICE (log 14): a run one of whose steps is held stops there with no reply yet;
once the held step has gone on, a further Run is the rest of it. -/
def hostRun (fuel : Nat) (s : State) : State × Reply :=
  if s.held then (s, .noMove) else if s.status = .running then runLoop fuel s else (s, .alreadyTerminated)

/-- The host supplies input items (10_state.md R31, 20_memory.md R59): they follow those not yet consumed. A source that
has ended supplies no more. -/
def hostSupply (s : State) (items : List InputItem) : State × Reply :=
  if s.input.ended then (s, .noMove)
  else (s.setInput { s.input with pending := s.input.pending ++ items }, .done)

/-- The host ends the input source (20_memory.md R59, 70_reset_and_hazards.md R234). -/
def hostEndInput (s : State) : State × Reply := (s.setInput { s.input with ended := true }, .done)

/-- The host's commands that can change the machine (70_reset_and_hazards.md R234); GetMemory and observation change
nothing. A run carries the model's bound on it (log 14). Beside the commands stands `resume`, by which a held step goes
on. -/
inductive HostMove where
  | step
  | resume
  | run (fuel : Nat)
  | setMemory (addr value : Word)
  | supply (items : List InputItem)
  | endInput
deriving DecidableEq, Repr

/-- The state after a host command, or after a held step has gone on. -/
def State.afterMove (s : State) : HostMove → State
  | .step => (hostStep s).1
  | .resume => (hostResume s).1
  | .run fuel => (hostRun fuel s).1
  | .setMemory addr value => (hostSet s addr value).1
  | .supply items => (hostSupply s items).1
  | .endInput => (hostEndInput s).1

end Sys2Proof.Machine
end

