-- ==== Sys2Proof/Safety.lean ====
section
/-! DEFINITION. What counts as a terminal, a correct and a faulty end, in the terms claims use, and the machine's
invariant. -/

namespace Sys2Proof.Machine

/-- Halted or Faulted (40_execution_engine.md R110). -/
def State.terminal (s : State) : Bool := s.status != .running

/-- The program ended well: Halted, not merely terminal (60_exceptions.md R209). -/
def State.endedWell (s : State) : Bool := s.status == .halted

/-- The program ended in a fault. -/
def State.endedInFault (s : State) : Bool := s.terminal && s.status != .halted

/-- `s` runs to the terminal state `t` in some number of steps, with the input it has; a step held in `s` goes on
(40_execution_engine.md R122, R126). -/
def State.RunsTo (s t : State) : Prop := t.terminal = true ∧ ∃ n, Nat.iterate (fun u => (stepReply u).1) n s = t

/-- The invariant of the machine: memory is in its canonical form and within its bounds, and a step is held in PortRead
only while the machine is Running with a legal IN at `pc` (60_exceptions.md R207). -/
def State.Inv (s : State) : Prop :=
  s.mem.wf = true ∧
    (s.waiting = true → s.status = .running ∧ ∃ dst : Param, s.fetch = .ok (.inp dst) ∧ dst.mode = 0)

end Sys2Proof.Machine
end

