-- ==== Sys2Proof/Certificates/Slice0/Obligations.lean ====
section
/-! DEFINITION. The statements for the provers. Each docstring names the rule of spec/ or the spec's own decision that
the statement formalises. Statements are of the machine, never of a program. -/

namespace Sys2Proof.Claims

open Sys2Proof.Machine

/-! ## Words the statements share -/

/-- `s` after a fault: the status alone is new, and no step is in progress. -/
def faultedAs (s : State) (r : FaultReason) : State := { s with status := .faulted r, waiting := false }

/-- `v` is the value of the read-class parameter `p` (30_encoding.md R88): the cell it addresses, or itself. -/
def Operand (m : Memory) (p : Param) (v : Word) : Prop :=
  (p.mode = 0 ∧ m.get? p.raw.toInt = some v) ∨ (p.mode = 1 ∧ v = p.raw)

/-- The parameter's mode digit names a mode (30_encoding.md R87). -/
def ReadLegal (p : Param) : Prop := p.mode = 0 ∨ p.mode = 1

/-- The read-class parameter addresses a cell outside memory (60_exceptions.md R191 (c)). -/
def BadAddress (m : Memory) (p : Param) : Prop := p.mode = 0 ∧ ¬ (0 ≤ p.raw.toInt ∧ p.raw.toInt < m.size)

/-- `t` is `s` with `v` in the one cell `addr` and `pc` moved on by `n` cells; everything else is as it was. -/
def StoredAndAdvanced (s t : State) (addr : Int) (v : Word) (n : Nat) : Prop :=
  t.mem.get? addr = some v ∧ t.mem.size = s.mem.size ∧ (∀ b, b ≠ addr → t.mem.get? b = s.mem.get? b) ∧
    t.pc = s.pc + BitVec.ofNat 64 n ∧ t.status = s.status ∧ t.output = s.output ∧ t.waiting = false

/-- An item the port drops (20_memory.md R59, decision D9): not an integer, or one outside the 64-bit range. -/
def Malformed (x : InputItem) : Prop := x = .malformed ∨ ∃ z, x = .integer z ∧ ¬ (-2 ^ 63 ≤ z ∧ z < 2 ^ 63)

/-- The destination parameter of the five writing instructions (10_state.md R25). -/
def destination : Instr → Option Param
  | .add _ _ dst => some dst
  | .mult _ _ dst => some dst
  | .inp dst => some dst
  | .lt _ _ dst => some dst
  | .eq _ _ dst => some dst
  | .out _ => none
  | .jt _ _ => none
  | .jf _ _ => none
  | .halt => none

/-- The read-class parameters (30_encoding.md R86). -/
def readParams : Instr → List Param
  | .add a b _ => [a, b]
  | .mult a b _ => [a, b]
  | .inp _ => []
  | .out a => [a]
  | .jt a b => [a, b]
  | .jf a b => [a, b]
  | .lt a b _ => [a, b]
  | .eq a b _ => [a, b]
  | .halt => []

/-- The instruction's legality by the digits' values (30_encoding.md R87). -/
def LegalModes (i : Instr) : Prop :=
  (∀ p ∈ readParams i, ReadLegal p) ∧ ∀ p, destination i = some p → p.mode = 0

/-- A step is in progress (60_exceptions.md R207): the machine is Running and its step is held in PortRead. -/
def Held (s : State) : Prop := s.status = .running ∧ s.waiting = true

/-- The machine after `n` steps requested by the host. Once a step is held the requests are no move. -/
def afterSteps (s : State) : Nat → State
  | 0 => s
  | n + 1 => (hostStep (afterSteps s n)).1

/-- `vs` is what a step of `s` appends to the output log (42_io.md R151): the operand's value where the machine is Running
at an OUT whose operand has one, and otherwise nothing. -/
def Appends (s : State) (vs : List Word) : Prop :=
  (∃ a v, s.status = .running ∧ s.fetch = .ok (.out a) ∧ Operand s.mem a v ∧ vs = [v]) ∨
    ((¬ ∃ a v, s.status = .running ∧ s.fetch = .ok (.out a) ∧ Operand s.mem a v) ∧ vs = [])

/-- The decimal value of a run of digits (70_reset_and_hazards.md R231). -/
def digitsValue (ds : List Char) : Nat := ds.foldl (fun n c => 10 * n + (c.toNat - '0'.toNat)) 0

/-- `integer ::= "-"? digit+` and its value (70_reset_and_hazards.md R231). -/
def Numeral (cs : List Char) (z : Int) : Prop :=
  ∃ ds : List Char, ds ≠ [] ∧ (∀ c ∈ ds, c ∈ ['0', '1', '2', '3', '4', '5', '6', '7', '8', '9']) ∧
    ((cs = ds ∧ z = digitsValue ds) ∨ (cs = '-' :: ds ∧ z = -(digitsValue ds : Int)))

/-- `text ::= integer ("," integer)*` and the integers it holds (70_reset_and_hazards.md R231, decision D10). -/
def IsProgramText (text : List Char) (zs : List Int) : Prop :=
  ∃ fields : List (List Char), fields ≠ [] ∧ List.Forall₂ Numeral fields zs ∧ text = (fields.intersperse [',']).flatten

/-- The integers can be the cells of a machine (70_reset_and_hazards.md R233): each in the 64-bit range, and at most
2^63 - 4 of them. -/
def FitsMachine (zs : List Int) : Prop := (∀ z ∈ zs, -2 ^ 63 ≤ z ∧ z < 2 ^ 63) ∧ zs.length ≤ 2 ^ 63 - 4

/-- The cell address lies outside memory (20_memory.md R51). -/
def Outside (m : Memory) (addr : Int) : Prop := ¬ (0 ≤ addr ∧ addr < m.size)

/-- The four causes of OutOfBounds at the start of a step (60_exceptions.md R191): (a) pc outside memory; (b) the
instruction of a known opcode does not fit; (c) with legal modes, a position-mode operand outside memory; (d) with legal
modes, a destination outside memory. -/
def OutOfBoundsCause (s : State) : Prop :=
  Outside s.mem s.pc.toInt ∨
    (∃ raw op, s.mem.get? s.pc.toInt = some raw ∧ opcodeOf raw = some op ∧
      s.pc.toInt + 1 + op.paramCount > s.mem.size) ∨
    (∃ i, s.fetch = .ok i ∧ LegalModes i ∧ ∃ p ∈ readParams i, BadAddress s.mem p) ∨
    ∃ i dst, s.fetch = .ok i ∧ LegalModes i ∧ destination i = some dst ∧ Outside s.mem dst.raw.toInt

/-- A decimal integer as the program text writes it (70_reset_and_hazards.md R231). -/
def written (z : Int) : List Char :=
  if z < 0 then '-' :: Nat.toDigits 10 z.natAbs else Nat.toDigits 10 z.natAbs

/-! ## The step algorithm as 40_execution_engine.md R111 writes it

Written from the rule's pseudocode over the instruction word's decimal digits, without the model's decoder, its `Instr`
or its meanings. None is the reply AlreadyTerminated. -/

/-- Parameter count of an opcode in the table (30_encoding.md R89). -/
def countOf (op : Int) : Nat := if op = 99 then 0 else if op = 3 ∨ op = 4 then 1 else if op = 5 ∨ op = 6 then 2 else 3

/-- Parameter `k` of opcode `op` is write-class (30_encoding.md R86). -/
def writes (op : Int) (k : Nat) : Bool := (decide (op = 3) && k == 1) || k == 3

/-- Steps 5b to 7 of R111, the instruction word `raw` having passed steps 2 to 5a. -/
def runByRule (s : State) (raw : Int) : State :=
  let op := raw % 100
  let n := countOf op
  let p (k : Nat) : Word := (s.mem.get? (s.pc.toInt + k)).getD 0
  let v (k : Nat) : Option Word := if raw / 10 ^ (k + 1) % 10 = 0 then s.mem.get? (p k).toInt else some (p k)
  let next : Word := BitVec.ofInt 64 (s.pc.toInt + 1 + n)
  let store (src : InputSource) (k : Nat) (z : Int) : State :=
    match s.mem.set? (p k).toInt (BitVec.ofInt 64 z) with
    | none => { s with input := src, status := .faulted .outOfBounds, waiting := false }
    | some m => { s with mem := m, input := src, pc := next, waiting := false }
  if op = 99 then { s with status := .halted, waiting := false }
  else if op = 3 then
    match s.input.read with
    | (.wait, src) => { s with input := src, waiting := true }
    | (.exhausted, src) => { s with input := src, status := .faulted .inputExhausted, waiting := false }
    | (.value x, src) => store src 1 x.toInt
  else
    match v 1 with
    | none => faultedAs s .outOfBounds
    | some x =>
      if op = 4 then { s with output := s.output ++ [x], pc := next, waiting := false }
      else
        match v 2 with
        | none => faultedAs s .outOfBounds
        | some y =>
          if op = 5 then { s with pc := if x.toInt ≠ 0 then y else next, waiting := false }
          else if op = 6 then { s with pc := if x.toInt = 0 then y else next, waiting := false }
          else if op = 1 then store s.input 3 (x.toInt + y.toInt)
          else if op = 2 then store s.input 3 (x.toInt * y.toInt)
          else if op = 7 then store s.input 3 (if x.toInt < y.toInt then 1 else 0)
          else store s.input 3 (if x.toInt = y.toInt then 1 else 0)

/-- R111. -/
def stepByRule (s : State) : Option State :=
  if s.status ≠ .running then none
  else if s.pc.toInt < 0 ∨ s.mem.size ≤ s.pc.toInt then some (faultedAs s .outOfBounds)
  else
    let raw := ((s.mem.get? s.pc.toInt).getD 0).toInt
    if raw < 0 ∨ raw % 100 ∉ [1, 2, 3, 4, 5, 6, 7, 8, 99] then some (faultedAs s .invalidOpcode)
    else
      let n := countOf (raw % 100)
      if s.mem.size < s.pc.toInt + 1 + n then some (faultedAs s .outOfBounds)
      else if ((List.range n).all fun k =>
          let m := raw / 10 ^ (k + 2) % 10
          if writes (raw % 100) (k + 1) then m = 0 else m = 0 ∨ m = 1) then some (runByRule s raw)
      else some (faultedAs s .invalidAddressingMode)

end Sys2Proof.Claims

open Sys2Proof Sys2Proof.Machine Sys2Proof.Claims

/-! ## Encoding and decoding -/

/-- Decoding what the encoder writes gives the instruction back, for every instruction, every mode digit (legal or not),
every parameter value, whatever cells follow (30_encoding.md R80, R81, R83, R94). -/
def Obligations.DecodeOfEncodeGivesInstrBack : Prop :=
  ∀ (i : Instr) (rest : List Word), decode (encode i ++ rest) = .ok (i, rest)

/-- What a successful decode says about the cells (30_encoding.md R80, R81): a non-negative word, then the instruction's
parameter cells in order, then the cells left over; the canonical word is the word's low n + 2 digits. That the higher
digits are ignored is the spec's decision D4 (log 10). -/
def Obligations.DecodedCellsAreWordThenParameters : Prop :=
  ∀ (cells rest : List Word) (i : Instr), decode cells = .ok (i, rest) →
    ∃ raw, cells = raw :: (i.params.map (·.raw) ++ rest) ∧ 0 ≤ raw.toInt ∧
      (instrWord i).toInt = raw.toInt % 10 ^ (i.params.length + 2)

/-- Cells written out by hand from 30_encoding.md R89 and R94 decode to the instructions they stand for. -/
def Obligations.HandWrittenWordsDecode : Prop :=
  decode [1002, 4, 3, 4] = .ok (.mult ⟨0, 4⟩ ⟨1, 3⟩ ⟨0, 4⟩, []) ∧
  decode [1105, 1, 4] = .ok (.jt ⟨1, 1⟩ ⟨1, 4⟩, []) ∧
  decode [3, 20] = .ok (.inp ⟨0, 20⟩, []) ∧
  decode [204, 7] = .ok (.out ⟨2, 7⟩, []) ∧
  decode [99] = .ok (.halt, []) ∧
  decode [98, 1] = .error .invalidOpcode

/-- A non-negative word whose two low digits are not in the table takes InvalidOpcode, and nothing else changes
(30_encoding.md R91, 60_exceptions.md R192). -/
def Obligations.UnknownOpcodeTakesInvalidOpcode : Prop :=
  ∀ (s : State) (raw : Word), s.status = .running → s.mem.get? s.pc.toInt = some raw → 0 ≤ raw.toInt →
    raw.toInt % 100 ∉ [1, 2, 3, 4, 5, 6, 7, 8, 99] → step s = .next (faultedAs s .invalidOpcode)

/-- A negative word takes InvalidOpcode, whatever its digits (30_encoding.md R82). The rule is the spec's decision D3
(log 10). -/
def Obligations.NegativeWordTakesInvalidOpcode : Prop :=
  ∀ (s : State) (raw : Word), s.status = .running → s.mem.get? s.pc.toInt = some raw → raw.toInt < 0 →
    step s = .next (faultedAs s .invalidOpcode)

/-! ## Fetch and step -/

/-- A step of a Running machine runs exactly the instruction its cells at `pc` decode to; the model's step adds nothing
around it (40_execution_engine.md R111, R118). -/
def Obligations.StepRunsTheDecodedInstr : Prop :=
  ∀ (s : State) (i : Instr) (rest : List Word), s.status = .running → decode s.fetchCells = .ok (i, rest) →
    step s = exec i s

/-- The cells a step decodes are M[pc], M[pc+1], M[pc+2], M[pc+3], as far as memory reaches (20_memory.md R54, R65). -/
def Obligations.FetchReadsCellsFromPc : Prop :=
  ∀ (s : State) (k : Nat), 0 ≤ s.pc.toInt →
    s.fetchCells[k]? = if k < 4 then s.mem.get? (s.pc.toInt + k) else none

/-- The next fetch sees a store to any cell of the instruction at `pc`, and sees every other cell as it was
(20_memory.md R65, 70_reset_and_hazards.md R240). -/
def Obligations.FetchSeesEveryStore : Prop :=
  ∀ (s : State) (m : Memory) (addr : Int) (v w : Word) (k : Nat), s.mem.set? addr v = some m →
    s.fetchCells[k]? = some w →
    (s.setMem m).fetchCells[k]? = some (if addr = s.pc.toInt + k then v else w)

/-- Step 2: a `pc` outside 0..N-1, negative or too large, takes OutOfBounds and stays (40_execution_engine.md R113,
10_state.md R27). -/
def Obligations.PcOutsideMemoryTakesOutOfBounds : Prop :=
  ∀ s : State, s.status = .running → ¬ (0 ≤ s.pc.toInt ∧ s.pc.toInt < s.mem.size) →
    step s = .next (faultedAs s .outOfBounds)

/-- Step 4 (40_execution_engine.md R115): a known instruction that does not fit takes OutOfBounds whatever its modes; one
that fits is executed with the n cells after it as its parameters; HALT always fits. -/
def Obligations.InstrMustFitInMemory : Prop :=
  ∀ (s : State) (raw : Word) (op : Opcode), s.status = .running → s.mem.get? s.pc.toInt = some raw →
    opcodeOf raw = some op →
    (s.pc.toInt + 1 + op.paramCount > s.mem.size → step s = .next (faultedAs s .outOfBounds)) ∧
    (s.pc.toInt + 1 + op.paramCount ≤ s.mem.size →
      ∃ i, i.opcode = op ∧ i.params.length = op.paramCount ∧ step s = exec i s ∧
        ∀ (k : Nat) (p : Param), i.params[k]? = some p → s.mem.get? (s.pc.toInt + 1 + k) = some p.raw) ∧
    (op = .halt → s.pc.toInt + 1 + op.paramCount ≤ s.mem.size)

/-- A step requested in a terminal state fails with AlreadyTerminated, and any number of such requests changes nothing
and gets the same reply (40_execution_engine.md R112). -/
def Obligations.TerminalStepIsAlreadyTerminated : Prop :=
  ∀ s : State, s.status ≠ .running → step s = .fault .alreadyTerminated ∧
    ∀ n : Nat, afterSteps s n = s ∧ (hostStep (afterSteps s n)).2 = .alreadyTerminated

/-- A step of a Running machine always answers a next state: no instruction, operand or word stops the model
(40_execution_engine.md R110). That an IN waiting on an open source answers a next state, where the spec speaks of a
step that is not enabled, is the model's DESIGN CHOICE (log 5; decision D19), and that a fault is a next state is DEDUCED
(log 7). -/
def Obligations.RunningStepAnswersNext : Prop :=
  ∀ s : State, s.status = .running → ∃ t, step s = .next t

/-! ## Operands, memory and modes -/

/-- `resolve` (30_encoding.md R88). -/
def Obligations.ResolveFollowsModeDigit : Prop :=
  ∀ (m : Memory) (p : Param),
    (p.mode = 0 → resolve m p = match m.get? p.raw.toInt with | some v => .ok v | none => .error .outOfBounds) ∧
    (p.mode = 1 → resolve m p = .ok p.raw) ∧
    (p.mode ≠ 0 → p.mode ≠ 1 → resolve m p = .error .invalidAddressingMode)

/-- The Memory Store's contract (20_memory.md R51): reads and writes fail exactly outside 0..N-1; a write changes its own
cell only; inside a step the failure is the fault OutOfBounds, for a position-mode operand and for a destination; to a
host command it is an error reply and the state does not change. -/
def Obligations.MemoryStoreContract : Prop :=
  (∀ (m : Memory) (addr : Int) (v : Word), ¬ (0 ≤ addr ∧ addr < m.size) → m.get? addr = none ∧ m.set? addr v = none) ∧
  (∀ (m : Memory) (addr : Int) (v : Word), 0 ≤ addr → addr < m.size →
    (∃ w, m.get? addr = some w) ∧
    ∃ m', m.set? addr v = some m' ∧ m'.size = m.size ∧ m'.get? addr = some v ∧
      ∀ b, b ≠ addr → m'.get? b = m.get? b) ∧
  (∀ (s : State) (addr v : Word) (n : Nat), ¬ (0 ≤ addr.toInt ∧ addr.toInt < s.mem.size) →
    resolve s.mem ⟨0, addr⟩ = .error .outOfBounds ∧
    storeAndAdvance s addr v n = .next (faultedAs s .outOfBounds) ∧
    (s.waiting = false → hostGet s addr = .outOfBounds ∧ hostSet s addr v = (s, .outOfBounds)))

/-- An instruction with an illegal mode digit takes InvalidAddressingMode, and neither memory nor the ports are touched
(30_encoding.md R87, 60_exceptions.md R193). That this comes before any operand is read and before the input is asked is
the spec's decision D5 and D6 (log 11). -/
def Obligations.IllegalModeTakesInvalidAddressingMode : Prop :=
  ∀ (i : Instr) (s : State), ¬ LegalModes i → exec i s = .next (faultedAs s .invalidAddressingMode)

/-- The legality the model judges is 30_encoding.md R87's. -/
def Obligations.WellFormedIsLegalModes : Prop :=
  ∀ i : Instr, i.wellFormed = true ↔ LegalModes i

/-- With legal modes, a position-mode operand outside memory takes OutOfBounds, also in a jump that is not taken
(40_execution_engine.md R117, 60_exceptions.md R191 (c)). -/
def Obligations.OperandOutsideTakesOutOfBounds : Prop :=
  ∀ (i : Instr) (s : State), LegalModes i → (∃ p ∈ readParams i, BadAddress s.mem p) →
    exec i s = .next (faultedAs s .outOfBounds)

/-- ADD, MULT, LT and EQ with good operands and a destination outside memory take OutOfBounds, nothing written
(60_exceptions.md R191 (d)). -/
def Obligations.DestinationOutsideTakesOutOfBounds : Prop :=
  ∀ (a b dst : Param) (x y : Word) (s : State), Operand s.mem a x → Operand s.mem b y → dst.mode = 0 →
    ¬ (0 ≤ dst.raw.toInt ∧ dst.raw.toInt < s.mem.size) →
    exec (.add a b dst) s = .next (faultedAs s .outOfBounds) ∧
    exec (.mult a b dst) s = .next (faultedAs s .outOfBounds) ∧
    exec (.lt a b dst) s = .next (faultedAs s .outOfBounds) ∧
    exec (.eq a b dst) s = .next (faultedAs s .outOfBounds)

/-! ## Results of the nine instructions, with all they leave unchanged -/

/-- ADD (41_arithmetic.md R140): the destination holds the sum reduced modulo 2^64 into the signed range. The reduction is
the spec's decision D2 (log 9). -/
def Obligations.AddStoresTheSum : Prop :=
  ∀ (a b dst : Param) (x y : Word) (s : State), Operand s.mem a x → Operand s.mem b y → dst.mode = 0 →
    0 ≤ dst.raw.toInt → dst.raw.toInt < s.mem.size →
    ∃ t v, exec (.add a b dst) s = .next t ∧ v.toInt = (x.toInt + y.toInt).bmod (2 ^ 64) ∧
      StoredAndAdvanced s t dst.raw.toInt v 4 ∧ t.input = s.input

/-- MULT (41_arithmetic.md R141), as ADD with the signed product (decision D2, log 9). -/
def Obligations.MultStoresTheProduct : Prop :=
  ∀ (a b dst : Param) (x y : Word) (s : State), Operand s.mem a x → Operand s.mem b y → dst.mode = 0 →
    0 ≤ dst.raw.toInt → dst.raw.toInt < s.mem.size →
    ∃ t v, exec (.mult a b dst) s = .next t ∧ v.toInt = (x.toInt * y.toInt).bmod (2 ^ 64) ∧
      StoredAndAdvanced s t dst.raw.toInt v 4 ∧ t.input = s.input

/-- The source's own part of 41_arithmetic.md R142, (a): where the exact result is in the signed range, it is what the
destination holds, for ADD and for MULT. -/
def Obligations.ArithmeticIsExactInRange : Prop :=
  ∀ (a b dst : Param) (x y : Word) (s t : State), Operand s.mem a x → Operand s.mem b y → dst.mode = 0 →
    0 ≤ dst.raw.toInt → dst.raw.toInt < s.mem.size →
    (exec (.add a b dst) s = .next t → -2 ^ 63 ≤ x.toInt + y.toInt → x.toInt + y.toInt ≤ 2 ^ 63 - 1 →
      ∃ v, t.mem.get? dst.raw.toInt = some v ∧ v.toInt = x.toInt + y.toInt) ∧
    (exec (.mult a b dst) s = .next t → -2 ^ 63 ≤ x.toInt * y.toInt → x.toInt * y.toInt ≤ 2 ^ 63 - 1 →
      ∃ v, t.mem.get? dst.raw.toInt = some v ∧ v.toInt = x.toInt * y.toInt)

/-- LT (44_compare.md R170): signed comparison, 1 or 0, always written. -/
def Obligations.LtStoresSignedLess : Prop :=
  ∀ (a b dst : Param) (x y : Word) (s : State), Operand s.mem a x → Operand s.mem b y → dst.mode = 0 →
    0 ≤ dst.raw.toInt → dst.raw.toInt < s.mem.size →
    ∃ t, exec (.lt a b dst) s = .next t ∧
      StoredAndAdvanced s t dst.raw.toInt (if x.toInt < y.toInt then 1 else 0) 4 ∧ t.input = s.input

/-- EQ (44_compare.md R171): 1 or 0, always written. -/
def Obligations.EqStoresEquality : Prop :=
  ∀ (a b dst : Param) (x y : Word) (s : State), Operand s.mem a x → Operand s.mem b y → dst.mode = 0 →
    0 ≤ dst.raw.toInt → dst.raw.toInt < s.mem.size →
    ∃ t, exec (.eq a b dst) s = .next t ∧
      StoredAndAdvanced s t dst.raw.toInt (if x.toInt = y.toInt then 1 else 0) 4 ∧ t.input = s.input

/-- For any two operands exactly one of a < b, a = b, b < a is stored as 1, and the other two instructions store 0
(44_compare.md R171). -/
def Obligations.ExactlyOneCompareStoresOne : Prop :=
  ∀ (a b dst : Param) (x y : Word) (s : State), Operand s.mem a x → Operand s.mem b y → dst.mode = 0 →
    0 ≤ dst.raw.toInt → dst.raw.toInt < s.mem.size →
    ∃ t1 t2 t3 v1 v2 v3, exec (.lt a b dst) s = .next t1 ∧ exec (.eq a b dst) s = .next t2 ∧
      exec (.lt b a dst) s = .next t3 ∧ t1.mem.get? dst.raw.toInt = some v1 ∧
      t2.mem.get? dst.raw.toInt = some v2 ∧ t3.mem.get? dst.raw.toInt = some v3 ∧
      ((v1 = 1 ∧ v2 = 0 ∧ v3 = 0) ∨ (v1 = 0 ∧ v2 = 1 ∧ v3 = 0) ∨ (v1 = 0 ∧ v2 = 0 ∧ v3 = 1))

/-- IN with an item to take (42_io.md R150): malformed items before it are consumed and dropped, its value is stored, one
well-formed item is consumed. What counts as malformed is decision D9 (log 4). -/
def Obligations.InStoresTheNextValue : Prop :=
  ∀ (dst : Param) (bad rest : List InputItem) (z : Int) (s : State), dst.mode = 0 →
    s.input.pending = bad ++ .integer z :: rest → (∀ x ∈ bad, Malformed x) → -2 ^ 63 ≤ z → z < 2 ^ 63 →
    0 ≤ dst.raw.toInt → dst.raw.toInt < s.mem.size →
    ∃ t v, exec (.inp dst) s = .next t ∧ v.toInt = z ∧ StoredAndAdvanced s t dst.raw.toInt v 2 ∧
      t.input = { pending := rest, consumed := s.input.consumed + bad.length + 1, ended := s.input.ended }

/-- IN at the end of the source (42_io.md R150, 60_exceptions.md R194): InputExhausted; malformed items met on the way are
consumed, memory, pc and output are unchanged. -/
def Obligations.InAtEndTakesInputExhausted : Prop :=
  ∀ (dst : Param) (s : State), dst.mode = 0 → (∀ x ∈ s.input.pending, Malformed x) → s.input.ended = true →
    exec (.inp dst) s = .next { faultedAs s .inputExhausted with
      input := { pending := [], consumed := s.input.consumed + s.input.pending.length, ended := true } }

/-- IN with no item yet and the source not ended waits (20_memory.md R59, decision D19; log 5): memory, pc, status and
output stay, the step is in progress. -/
def Obligations.InWithoutItemWaits : Prop :=
  ∀ (dst : Param) (s : State), dst.mode = 0 → (∀ x ∈ s.input.pending, Malformed x) → s.input.ended = false →
    exec (.inp dst) s = .next { s with
      waiting := true
      input := { pending := [], consumed := s.input.consumed + s.input.pending.length, ended := false } }

/-- A held IN ends in the two ways 60_exceptions.md R207 names (20_memory.md R59). When the host supplies an item, the held
step, going on, stores the value and leaves the wait. When the host ends the source, it takes InputExhausted, memory and pc
as they were. The model's `step` at a held state is the held step going on, and the move `resume` makes it. The wait is decision D19, that exhaustion is final D20, their form here log 5; what is malformed is
D9 (log 4). -/
def Obligations.SuppliedItemEndsTheWait : Prop :=
  (∀ (s : State) (dst : Param) (z : Int), s.status = .running → s.fetch = .ok (.inp dst) → dst.mode = 0 →
    (∀ x ∈ s.input.pending, Malformed x) → s.input.ended = false → -2 ^ 63 ≤ z → z < 2 ^ 63 →
    0 ≤ dst.raw.toInt → dst.raw.toInt < s.mem.size →
    ∃ h t v, step s = .next h ∧ h.waiting = true ∧
      step (h.afterMove (.supply [.integer z])) = .next t ∧
      (h.afterMove (.supply [.integer z])).afterMove .resume = t ∧ v.toInt = z ∧
      StoredAndAdvanced s t dst.raw.toInt v 2 ∧ t.input.pending = []) ∧
  (∀ (s : State) (dst : Param), s.status = .running → s.fetch = .ok (.inp dst) → dst.mode = 0 →
    (∀ x ∈ s.input.pending, Malformed x) → s.input.ended = false →
    ∃ h t, step s = .next h ∧ h.waiting = true ∧
      step (h.afterMove .endInput) = .next t ∧ (h.afterMove .endInput).afterMove .resume = t ∧
      t = { faultedAs s .inputExhausted with
        input := { pending := [], consumed := s.input.consumed + s.input.pending.length, ended := true } })

/-- While a step is held in PortRead, GetMemory, SetMemory, another Step and a Run are no move: nothing changes
(70_reset_and_hazards.md R244, 20_memory.md R63; decision D11). That the reply says so is the model's form of it (log
14). -/
def Obligations.NoCommandDuringTheWait : Prop :=
  ∀ (s : State) (addr v : Word) (fuel : Nat), Held s →
    hostGet s addr = .noMove ∧ hostSet s addr v = (s, .noMove) ∧ hostStep s = (s, .noMove) ∧
      hostRun fuel s = (s, .noMove)

/-- IN with a destination outside memory takes OutOfBounds and the item is lost (42_io.md R150; the order is decision D8,
log 11). -/
def Obligations.InOutsideLosesTheItem : Prop :=
  ∀ (dst : Param) (bad rest : List InputItem) (z : Int) (s : State), dst.mode = 0 →
    s.input.pending = bad ++ .integer z :: rest → (∀ x ∈ bad, Malformed x) → -2 ^ 63 ≤ z → z < 2 ^ 63 →
    ¬ (0 ≤ dst.raw.toInt ∧ dst.raw.toInt < s.mem.size) →
    exec (.inp dst) s = .next { faultedAs s .outOfBounds with
      input := { pending := rest, consumed := s.input.consumed + bad.length + 1, ended := s.input.ended } }

/-- The engine sees nothing of malformed items (60_exceptions.md R208): IN answers the same with them in front as without
them, the port's cursor standing after them. What counts as malformed is decision D9 (log 4). -/
def Obligations.MalformedItemsAreInvisible : Prop :=
  ∀ (dst : Param) (bad items : List InputItem) (s : State), dst.mode = 0 → (∀ x ∈ bad, Malformed x) →
    exec (.inp dst) { s with input := { s.input with pending := bad ++ items } } =
      exec (.inp dst) { s with input := { s.input with
        pending := items
        consumed := s.input.consumed + bad.length } }

/-- OUT (42_io.md R151): the value is appended to the output log; no cell changes. That it always completes, whatever the
log holds, is the spec's decision D18 (log 13). -/
def Obligations.OutAppendsTheOperand : Prop :=
  ∀ (a : Param) (x : Word) (s : State), Operand s.mem a x →
    exec (.out a) s = .next { s with output := s.output ++ [x], pc := s.pc + 2, waiting := false }

/-- JT (43_jump.md R160): any non-zero value jumps to b; 0 falls through; nothing else changes. That b is written
unchecked, whatever it is, is the spec's decision D13 (log 12). -/
def Obligations.JtJumpsOnNonZero : Prop :=
  ∀ (a b : Param) (x y : Word) (s : State), Operand s.mem a x → Operand s.mem b y →
    exec (.jt a b) s = .next { s with pc := if x.toInt ≠ 0 then y else s.pc + 3, waiting := false }

/-- JF (43_jump.md R161): 0 jumps to b; any other value falls through; nothing else changes. That b is written unchecked,
whatever it is, is the spec's decision D13 (log 12). -/
def Obligations.JfJumpsOnZero : Prop :=
  ∀ (a b : Param) (x y : Word) (s : State), Operand s.mem a x → Operand s.mem b y →
    exec (.jf a b) s = .next { s with pc := if x.toInt = 0 then y else s.pc + 3, waiting := false }

/-- HALT (45_halt.md R180): status becomes Halted and nothing else changes. That pc stays is decision D7 (log 12). -/
def Obligations.HaltOnlySetsHalted : Prop :=
  ∀ s : State, exec .halt s = .next { s with status := .halted, waiting := false }

/-! ## Frames -/

/-- Frame of ADD, MULT, LT and EQ, however they end (10_state.md R33, 20_memory.md R52): the ports are untouched, every
cell but the destination reads as before, and either the instruction completed or it faulted with memory and pc as they
were. -/
def Obligations.StoringInstrFrame : Prop :=
  ∀ (i : Instr) (a b dst : Param) (s t : State),
    i ∈ [Instr.add a b dst, .mult a b dst, .lt a b dst, .eq a b dst] → exec i s = .next t →
    t.input = s.input ∧ t.output = s.output ∧ t.waiting = false ∧ t.mem.size = s.mem.size ∧
      (∀ addr, addr ≠ dst.raw.toInt → t.mem.get? addr = s.mem.get? addr) ∧
      ((t.status = s.status ∧ t.pc = s.pc + 4) ∨ ((∃ r, t.status = .faulted r) ∧ t.pc = s.pc ∧ t.mem = s.mem))

/-- Frame of IN, however it ends (42_io.md R150): the output is untouched, every cell but the destination reads as before,
and the port has only consumed items from its front. -/
def Obligations.InFrame : Prop :=
  ∀ (dst : Param) (s t : State), exec (.inp dst) s = .next t →
    t.output = s.output ∧ t.mem.size = s.mem.size ∧
      (∀ addr, addr ≠ dst.raw.toInt → t.mem.get? addr = s.mem.get? addr) ∧
      (∃ k, t.input = { pending := s.input.pending.drop k, consumed := s.input.consumed + k, ended := s.input.ended } ∧
        k ≤ s.input.pending.length) ∧
      ((t.status = s.status ∧ t.pc = s.pc + 2 ∧ t.waiting = false) ∨
        (t.status = s.status ∧ t.pc = s.pc ∧ t.mem = s.mem ∧ t.waiting = true) ∨
        ((∃ r, t.status = .faulted r) ∧ t.pc = s.pc ∧ t.mem = s.mem ∧ t.waiting = false))

/-- Frame of OUT, JT and JF, however they end (10_state.md R33): no cell changes and no input is consumed; JT and JF leave
the output log, and OUT that faults does too. -/
def Obligations.OutAndJumpFrame : Prop :=
  ∀ (i : Instr) (a b : Param) (s t : State), i ∈ [Instr.out a, .jt a b, .jf a b] → exec i s = .next t →
    t.mem = s.mem ∧ t.input = s.input ∧ t.waiting = false ∧ (i ≠ .out a → t.output = s.output) ∧
      (t.status = s.status ∨ ((∃ r, t.status = .faulted r) ∧ t.pc = s.pc ∧ t.output = s.output))

/-! ## The whole machine -/

/-- The step is the algorithm of 40_execution_engine.md R111, computed from the decimal digits of the word at pc, with
every check in the order of 60_exceptions.md R197. It rests on the spec's decisions D1 (width, log 8), D2 (wrap, log 9),
D3 and D4 (negative word, surplus digits, log 10), D5, D6 and D8 (order of checks, log 11), D7 and D13 (pc after HALT,
unchecked target, log 12), D9 (malformed items, log 4), D18 (output, log 13), D19 and D20 (the wait and exhaustion, log
5), and on the model's form of a fault (log 7) and of AlreadyTerminated (log 6). -/
def Obligations.StepIsTheRulesAlgorithm : Prop :=
  ∀ s : State, step s = match stepByRule s with | some t => .next t | none => .fault .alreadyTerminated

/-- A fault leaves memory exactly as it was and pc at the faulting instruction (20_memory.md R67). -/
def Obligations.FaultLeavesMemoryAndPc : Prop :=
  ∀ (s t : State) (r : FaultReason), step s = .next t → t.status = .faulted r → t.mem = s.mem ∧ t.pc = s.pc

/-- What a step that faults was given, for each of the four reasons (60_exceptions.md R190 to R194): OutOfBounds has one
of R191's four causes; InvalidOpcode a word at pc that is negative or has an opcode outside the table; InvalidAddressingMode
a fetched instruction with an illegal mode digit; InputExhausted a fetched IN on an ended source with no well-formed item.
HALT, once fetched, raises none. It rests on the spec's decisions D3 (log 10), D5, D6 and D8 (log 11), D9 (log 4) and D20
(log 5), and a fault is a next state by log 7. -/
def Obligations.FaultReasonOrigins : Prop :=
  ∀ (s t : State) (r : FaultReason), step s = .next t → t.status = .faulted r →
    (r = .outOfBounds → OutOfBoundsCause s) ∧
    (r = .invalidOpcode → ∃ raw, s.mem.get? s.pc.toInt = some raw ∧
      (raw.toInt < 0 ∨ raw.toInt % 100 ∉ [1, 2, 3, 4, 5, 6, 7, 8, 99])) ∧
    (r = .invalidAddressingMode → ∃ i, s.fetch = .ok i ∧ ¬ LegalModes i) ∧
    (r = .inputExhausted → (∃ dst, s.fetch = .ok (.inp dst) ∧ dst.mode = 0) ∧ s.input.ended = true ∧
      ∀ x ∈ s.input.pending, Malformed x) ∧
    s.fetch ≠ .ok .halt

/-- The machine becomes Halted by HALT and by nothing else (40_execution_engine.md R110). -/
def Obligations.HaltedExactlyByHalt : Prop :=
  ∀ s t : State, s.status = .running → step s = .next t → (t.status = .halted ↔ s.fetch = .ok .halt)

/-- Status, once it has left Running, is changed by no step, run, other host command or port event, and no instruction
executes then; a step of a Running machine that leaves Running halts by a HALT, or faults at an instruction or fetch that
is no HALT, with pc and memory as they were (10_state.md R30). -/
def Obligations.StatusIsImmutableOnceTerminal : Prop :=
  (∀ (s : State) (mv : HostMove), s.status ≠ .running → (s.afterMove mv).status = s.status) ∧
  (∀ (s t : State), step s = .next t → s.status = .running) ∧
  (∀ (s t : State), step s = .next t → t.status ≠ .running →
    (t.status = .halted ∧ s.fetch = .ok .halt) ∨
      ∃ r, t.status = .faulted r ∧ s.fetch ≠ .ok .halt ∧ t.pc = s.pc ∧ t.mem = s.mem)

/-- Only ADD, MULT, IN, LT and EQ change memory, and each changes at most its destination cell (10_state.md R25). -/
def Obligations.OnlyWritersChangeMemory : Prop :=
  ∀ (s t : State) (addr : Int), step s = .next t → t.mem.get? addr ≠ s.mem.get? addr →
    ∃ i dst, s.fetch = .ok i ∧ destination i = some dst ∧ addr = dst.raw.toInt

/-- No step and no host command changes N (10_state.md R22). -/
def Obligations.MemorySizeIsFixed : Prop :=
  ∀ (s : State) (mv : HostMove), (s.afterMove mv).mem.size = s.mem.size

/-- The output log only grows, by OUT alone and by its operand, one value a step (20_memory.md R60, 42_io.md R151): a
Step, and a held step that goes on, append exactly what OUT appends, a Run exactly what its steps in turn append, and
nothing else appends anything, a Step or Run commanded while a step is held among it (70_reset_and_hazards.md R244). That
OUT always succeeds is the spec's decision D18 (log 13); the bound on a run is the model's DESIGN CHOICE (log 14; decision
D21: the machine has none). -/
def Obligations.OutputGrowsOnlyByOut : Prop :=
  (∀ s : State, ¬ Held s → ∃ vs, Appends s vs ∧ (s.afterMove .step).output = s.output ++ vs) ∧
  (∀ s : State, Held s → ∃ vs, Appends s vs ∧ (s.afterMove .resume).output = s.output ++ vs) ∧
  (∀ (s : State) (fuel : Nat), ¬ Held s → ∃ vss : List (List Word), vss.length ≤ fuel ∧
    s.afterMove (.run fuel) = afterSteps s vss.length ∧
    (∀ (j : Nat) (vs : List Word), vss[j]? = some vs → Appends (afterSteps s j) vs) ∧
    (s.afterMove (.run fuel)).output = s.output ++ vss.flatten) ∧
  (∀ (s : State) (fuel : Nat), (Held s → s.afterMove .step = s ∧ s.afterMove (.run fuel) = s) ∧
    (¬ Held s → s.afterMove .resume = s)) ∧
  (∀ (s : State) (mv : HostMove), mv ≠ .step → mv ≠ .resume → (∀ fuel, mv ≠ .run fuel) →
    (s.afterMove mv).output = s.output)

/-- No step reads the output log: from another log the same step is made and the same values are appended
(20_memory.md R60, 40_execution_engine.md R125). -/
def Obligations.OutputLogIsNeverRead : Prop :=
  ∀ (s t : State) (log : List Word), step s = .next t →
    ∃ added, t.output = s.output ++ added ∧ step { s with output := log } = .next { t with output := log ++ added }

/-- Only IN reads or consumes the input source: any other step is the same with another source, and leaves it
(20_memory.md R68, 40_execution_engine.md R125). -/
def Obligations.OnlyInSeesTheInput : Prop :=
  ∀ (s t : State) (src : InputSource), (∀ dst, s.fetch ≠ .ok (.inp dst)) → step s = .next t →
    t.input = s.input ∧ step { s with input := src } = .next { t with input := src }

/-- On a machine that stays Running, pc moves exactly past the instruction's cells, as an exact integer sum, unless the
instruction is a jump or the step is held (10_state.md R28, 43_jump.md R162). That the sum never wraps rests on N's bound
(decision D14; logs 8, 20), the invariant `Memory.wf`. -/
def Obligations.PcMovesPastTheInstr : Prop :=
  ∀ (s t : State) (i : Instr), s.mem.wf = true → s.fetch = .ok i → step s = .next t → t.status = .running →
    t.waiting = false → (∀ a b, i ≠ .jt a b ∧ i ≠ .jf a b) → t.pc.toInt = s.pc.toInt + 1 + i.params.length

/-- Every step keeps the machine's invariant: memory canonical and within its bounds, and a held step only at a legal IN
of a Running machine (10_state.md R22, 60_exceptions.md R207). -/
def Obligations.StepKeepsTheInvariant : Prop :=
  ∀ s t : State, s.Inv → step s = .next t → t.Inv

/-- Every host command keeps the machine's invariant (70_reset_and_hazards.md R234). A held step that goes on
keeps it too. The invariant's clause on a held step is the model's form of the wait (log 5), and it survives SetMemory only
because SetMemory is no move while a step is held (70_reset_and_hazards.md R244, the spec's decision D11; its form is log
14). -/
def Obligations.HostMovesKeepTheInvariant : Prop :=
  ∀ (s : State) (mv : HostMove), s.Inv → (s.afterMove mv).Inv

/-! ## Reset, construction and the host -/

/-- The state after reset meets the invariant. The reset memory and input source are the model's choice (logs 2, 3). -/
def Obligations.ResetMeetsTheInvariant : Prop := State.reset.Inv

/-- The fields the spec gives reset (10_state.md R34, 70_reset_and_hazards.md R232): pc 0, Running, nothing consumed, an
empty output log. The other fields of `State.reset` are the model's choice (logs 2, 3, 5) and are not stated. -/
def Obligations.ResetValues : Prop :=
  State.reset.pc = 0 ∧ State.reset.status = .running ∧ State.reset.input.consumed = 0 ∧ State.reset.output = []

/-- Construction from program text (10_state.md R34, 70_reset_and_hazards.md R230 to R233). A text is accepted exactly
when it holds integers by the grammar, each in the 64-bit range and at most 2^63 - 4 of them; every other text is refused.
The machine of an accepted text: N is the number of integers, at least one, cell k holds the k-th, pc 0, Running, nothing
consumed, an empty output log, and the invariant holds. The grammar and the refusals are decision D10 (log 15), the range
and the count D1 and D14 (log 8), the empty log D24 (log 13). -/
def Obligations.ConstructedMachineState : Prop :=
  (∀ (text : List Char) (items : List InputItem) (ended : Bool),
    (∃ s, State.construct text items ended = some s) ↔ ∃ zs, IsProgramText text zs ∧ FitsMachine zs) ∧
  (∀ (text : List Char) (items : List InputItem) (ended : Bool) (s : State),
    State.construct text items ended = some s →
    ∃ zs, IsProgramText text zs ∧ parseText text = some zs ∧ zs ≠ [] ∧ s.mem.size = zs.length ∧
      (∀ (k : Nat) (z : Int), zs[k]? = some z → ∃ w, s.mem.get? k = some w ∧ w.toInt = z) ∧
      s.pc = 0 ∧ s.status = .running ∧ s.output = [] ∧
      s.input = { pending := items, consumed := 0, ended := ended } ∧ s.Inv)

/-- The parser accepts exactly the program text's grammar, and gives the integers it holds: leading zeros and a minus sign
before any digits are read, nothing else is (70_reset_and_hazards.md R231, decision D10; log 15). -/
def Obligations.ParserAcceptsExactlyTheGrammar : Prop :=
  ∀ (text : List Char) (zs : List Int), parseText text = some zs ↔ IsProgramText text zs

/-- Integers written in decimal with commas between them read back as those integers (70_reset_and_hazards.md R231,
decision D10; log 15). -/
def Obligations.ProgramTextReadsBack : Prop :=
  ∀ zs : List Int, zs ≠ [] → parseText ((zs.map written).intersperse [',']).flatten = some zs

/-- GetMemory and SetMemory between steps (70_reset_and_hazards.md R235; decisions D11 and D26, log 14): inside memory, in
every status, the value is read, or the one cell is changed and nothing else; outside, an error reply and no change. -/
def Obligations.HostAccessIsBoundsChecked : Prop :=
  ∀ (s : State) (addr v : Word), s.waiting = false →
    (0 ≤ addr.toInt ∧ addr.toInt < s.mem.size →
      (∃ w, s.mem.get? addr.toInt = some w ∧ hostGet s addr = .value w) ∧
      ∃ m, hostSet s addr v = ({ s with mem := m }, .done) ∧ m.size = s.mem.size ∧ m.get? addr.toInt = some v ∧
        ∀ b, b ≠ addr.toInt → m.get? b = s.mem.get? b) ∧
    (¬ (0 ≤ addr.toInt ∧ addr.toInt < s.mem.size) → hostGet s addr = .outOfBounds ∧ hostSet s addr v = (s, .outOfBounds))

/-- Step and Run (40_execution_engine.md R122, R123). A Step, where no step is in progress, makes the step and replies its
status, or is held; a held step that goes on does the same (log 5). A Run of a Running machine makes steps until one leaves
it terminal, stops there and replies that status, whenever the steps within the bound reach one; where one of them is held
it stops at it, with no reply yet (the model's DESIGN CHOICE, log 14); otherwise it has made as many steps as the bound and
the machine is still Running. A run that replies a status has so ended. In a terminal state both reply AlreadyTerminated
and change nothing. The bound is the model's own (log 14; decision D21: the machine has none). While a step is held both
are no move (70_reset_and_hazards.md R244), which NoCommandDuringTheWait states. -/
def Obligations.RunIsRepeatedStep : Prop :=
  (∀ s t : State, step s = .next t →
    (¬ Held s → hostStep s = (t, if t.waiting = true then .waiting else .status t.status)) ∧
    (Held s → hostResume s = (t, if t.waiting = true then .waiting else .status t.status))) ∧
  (∀ s : State, ¬ Held s → hostResume s = (s, .noMove)) ∧
  (∀ (s : State) (fuel k : Nat), k ≤ fuel → s.status = .running →
    (∀ j, j < k → (afterSteps s j).status = .running) → (afterSteps s k).status ≠ .running →
    hostRun fuel s = (afterSteps s k, .status (afterSteps s k).status)) ∧
  (∀ (s : State) (fuel k : Nat), k ≤ fuel → ¬ Held s →
    (∀ j, j < k → ¬ Held (afterSteps s j)) → Held (afterSteps s k) → hostRun fuel s = (afterSteps s k, .waiting)) ∧
  (∀ (s : State) (fuel : Nat), (∀ j, j ≤ fuel → (afterSteps s j).status = .running ∧ ¬ Held (afterSteps s j)) →
    hostRun fuel s = (afterSteps s fuel, .stillRunning)) ∧
  (∀ (s t : State) (fuel : Nat) (st : Status), s.status = .running → hostRun fuel s = (t, .status st) →
    st = t.status ∧ t.status ≠ .running ∧
      ∃ k, k ≤ fuel ∧ afterSteps s k = t ∧ ∀ j, j < k → (afterSteps s j).status = .running) ∧
  (∀ (s : State) (fuel : Nat), s.status ≠ .running →
    hostStep s = (s, .alreadyTerminated) ∧ hostRun fuel s = (s, .alreadyTerminated))

/-- Supplying items puts them after the unconsumed ones, ending the source only marks it, and neither touches anything
else (10_state.md R31, 70_reset_and_hazards.md R234). That an ended source takes no more is the model's reading (log 4). -/
def Obligations.SupplyAndEndChangeOnlyTheSource : Prop :=
  ∀ (s : State) (items : List InputItem),
    (s.input.ended = false → hostSupply s items =
      ({ s with input := { s.input with pending := s.input.pending ++ items } }, .done)) ∧
    (s.input.ended = true → hostSupply s items = (s, .noMove)) ∧
    hostEndInput s = ({ s with input := { s.input with ended := true } }, .done)

/-- The codes of 10_state.md R29 and 60_exceptions.md R190, the spec's decision D22 (log 16), AlreadyTerminated's among
them; as a reply it has code 5, and the status register's reason never has it. -/
def Obligations.StatusAndErrorCodes : Prop :=
  Status.running.stateCode = 0 ∧ Status.halted.stateCode = 1 ∧ (∀ r, (Status.faulted r).stateCode = 2) ∧
  Status.running.reasonCode = 0 ∧ Status.halted.reasonCode = 0 ∧
  (Status.faulted .outOfBounds).reasonCode = 1 ∧ (Status.faulted .invalidOpcode).reasonCode = 2 ∧
  (Status.faulted .invalidAddressingMode).reasonCode = 3 ∧ (Status.faulted .inputExhausted).reasonCode = 4 ∧
  Fault.alreadyTerminated.code = 5 ∧ Reply.errorCode .alreadyTerminated = some 5 ∧
  Reply.errorCode .outOfBounds = some 1 ∧ ∀ st : Status, st.reasonCode ≠ Fault.alreadyTerminated.code
end

