-- ==== Sys2Proof/Laws/Memory.lean ====
section
/-! SUPPORT. The memory store: what reading gives after writing, that every operation keeps the canonical form, and what
a constructed memory holds (20_memory.md R51, R52; 10_state.md R34). -/

namespace Sys2Proof.Machine

/-! ## Entries -/

theorem Memory.lookup_filter_self (a : Nat) (cells : List (Nat × Word)) :
    Memory.lookup (cells.filter (fun c => c.1 != a)) a = 0 := by
  induction cells with
  | nil => rfl
  | cons c rest ih =>
    obtain ⟨k, w⟩ := c
    by_cases h : k = a <;> simp [Memory.lookup, h, ih]

theorem Memory.lookup_filter_other {a b : Nat} (hab : b ≠ a) (cells : List (Nat × Word)) :
    Memory.lookup (cells.filter (fun c => c.1 != a)) b = Memory.lookup cells b := by
  induction cells with
  | nil => rfl
  | cons c rest ih =>
    obtain ⟨k, w⟩ := c
    by_cases h : k = a
    · simp [Memory.lookup, h, ih, hab.symm]
    · simp [Memory.lookup, h, ih]

theorem Memory.lookup_place_self (a : Nat) (v : Word) (cells : List (Nat × Word))
    (h : ∀ c ∈ cells, c.1 ≠ a) : Memory.lookup (Memory.place a v cells) a = v := by
  induction cells with
  | nil => simp [Memory.place, Memory.lookup]
  | cons c rest ih =>
    obtain ⟨k, w⟩ := c
    have hk : k ≠ a := h (k, w) (by simp)
    have hr := ih fun c hc => h c (by simp [hc])
    by_cases hlt : a < k <;> simp [Memory.place, Memory.lookup, hlt, hk, hr]

theorem Memory.lookup_place_other {a b : Nat} (hab : b ≠ a) (v : Word) (cells : List (Nat × Word)) :
    Memory.lookup (Memory.place a v cells) b = Memory.lookup cells b := by
  induction cells with
  | nil => simp [Memory.place, Memory.lookup, hab.symm]
  | cons c rest ih =>
    obtain ⟨k, w⟩ := c
    by_cases hlt : a < k <;> simp [Memory.place, Memory.lookup, hlt, hab.symm, ih]

theorem Memory.lookup_store_self (a : Nat) (v : Word) (cells : List (Nat × Word)) :
    Memory.lookup (Memory.store a v cells) a = v := by
  unfold Memory.store
  split
  · rename_i h; rw [Memory.lookup_filter_self, h]
  · exact Memory.lookup_place_self a v _ (by simp)

theorem Memory.lookup_store_other {a b : Nat} (hab : b ≠ a) (v : Word) (cells : List (Nat × Word)) :
    Memory.lookup (Memory.store a v cells) b = Memory.lookup cells b := by
  unfold Memory.store
  split
  · exact Memory.lookup_filter_other hab cells
  · rw [Memory.lookup_place_other hab, Memory.lookup_filter_other hab]

/-! ## Reading and writing memory -/

theorem Memory.inBounds_iff {m : Memory} {addr : Int} :
    m.inBounds addr = true ↔ 0 ≤ addr ∧ addr < m.size := by
  simp [Memory.inBounds]

theorem Memory.get?_eq_none_iff {m : Memory} {addr : Int} : m.get? addr = none ↔ m.inBounds addr = false := by
  unfold Memory.get?; split <;> simp_all

theorem Memory.set?_eq_none_iff {m : Memory} {addr : Int} {v : Word} :
    m.set? addr v = none ↔ m.inBounds addr = false := by
  unfold Memory.set?; split <;> simp_all

/-- A write succeeds exactly where the address is in bounds. -/
theorem Memory.set?_isSome {m : Memory} {addr : Int} (v : Word) (h : m.inBounds addr = true) :
    ∃ m', m.set? addr v = some m' := ⟨_, if_pos h⟩

/-- A write keeps N (10_state.md R22). -/
theorem Memory.set?_size {m m' : Memory} {addr : Int} {v : Word} (h : m.set? addr v = some m') :
    m'.size = m.size := by
  unfold Memory.set? at h; split at h <;> simp_all; rw [← h]

theorem Memory.set?_inBounds {m m' : Memory} {addr : Int} {v : Word} (h : m.set? addr v = some m') (b : Int) :
    m'.inBounds b = m.inBounds b := by
  simp [Memory.inBounds, Memory.set?_size h]

/-- Reading back what was written (20_memory.md R52). -/
theorem Memory.get?_set?_self {m m' : Memory} {addr : Int} {v : Word} (h : m.set? addr v = some m') :
    m'.get? addr = some v := by
  unfold Memory.set? at h
  split at h
  · rename_i hb
    have hb' : (Memory.inBounds { m with cells := Memory.store addr.toNat v m.cells } addr) = true := hb
    simp only [Option.some.injEq] at h
    subst h
    simp only [Memory.get?, hb', if_true, Memory.lookup_store_self]
  · cases h

/-- A write leaves every other cell alone (20_memory.md R51). -/
theorem Memory.get?_set?_other {m m' : Memory} {addr b : Int} {v : Word} (h : m.set? addr v = some m')
    (hb : b ≠ addr) : m'.get? b = m.get? b := by
  have hin := Memory.set?_inBounds h b
  unfold Memory.set? at h
  split at h
  · rename_i ha
    simp only [Option.some.injEq] at h
    subst h
    simp only [Memory.get?, hin]
    split
    · rename_i hbin
      have h1 := Memory.inBounds_iff.mp ha
      have h2 := Memory.inBounds_iff.mp hbin
      have : b.toNat ≠ addr.toNat := by omega
      simp only [Memory.lookup_store_other this]
    · rfl
  · cases h

/-- Reading after writing, both cases at once. -/
theorem Memory.get?_set? {m m' : Memory} {addr : Int} {v : Word} (h : m.set? addr v = some m') (b : Int) :
    m'.get? b = if b = addr then some v else m.get? b := by
  split
  · rename_i hb; rw [hb]; exact Memory.get?_set?_self h
  · rename_i hb; exact Memory.get?_set?_other h hb

/-! ## The canonical form -/

theorem Memory.canonical_cons {n a : Nat} {v : Word} {rest : List (Nat × Word)} :
    Memory.canonical n ((a, v) :: rest) = true ↔
      v ≠ 0 ∧ a < n ∧ (∀ c ∈ rest, a < c.1) ∧ Memory.canonical n rest = true := by
  simp [Memory.canonical, and_assoc]

theorem Memory.canonical_filter {n : Nat} (p : Nat × Word → Bool) {cells : List (Nat × Word)}
    (h : Memory.canonical n cells = true) : Memory.canonical n (cells.filter p) = true := by
  induction cells with
  | nil => rfl
  | cons c rest ih =>
    obtain ⟨k, w⟩ := c
    obtain ⟨hw, hk, hlt, hr⟩ := Memory.canonical_cons.mp h
    rw [List.filter_cons]
    split
    · exact Memory.canonical_cons.mpr ⟨hw, hk, fun c hc => hlt c (List.mem_of_mem_filter hc), ih hr⟩
    · exact ih hr

theorem Memory.mem_place {a : Nat} {v : Word} {cells : List (Nat × Word)} {c : Nat × Word}
    (h : c ∈ Memory.place a v cells) : c = (a, v) ∨ c ∈ cells := by
  induction cells with
  | nil => simpa [Memory.place] using h
  | cons d rest ih =>
    obtain ⟨k, w⟩ := d
    rw [Memory.place] at h
    split at h
    · simpa using h
    · rcases List.mem_cons.mp h with rfl | h
      · exact .inr (by simp)
      · exact (ih h).imp id (by simp_all)

theorem Memory.canonical_place {n a : Nat} {v : Word} (ha : a < n) (hv : v ≠ 0) {cells : List (Nat × Word)}
    (hne : ∀ c ∈ cells, c.1 ≠ a) (h : Memory.canonical n cells = true) :
    Memory.canonical n (Memory.place a v cells) = true := by
  induction cells with
  | nil => exact Memory.canonical_cons.mpr ⟨hv, ha, by simp, rfl⟩
  | cons d rest ih =>
    obtain ⟨k, w⟩ := d
    obtain ⟨hw, hk, hlt, hr⟩ := Memory.canonical_cons.mp h
    have hka : k ≠ a := hne (k, w) (by simp)
    rw [Memory.place]
    split
    · rename_i hlt'
      refine Memory.canonical_cons.mpr ⟨hv, ha, fun c hc => ?_, h⟩
      rcases List.mem_cons.mp hc with rfl | hc
      · exact hlt'
      · exact lt_trans hlt' (hlt c hc)
    · refine Memory.canonical_cons.mpr ⟨hw, hk, fun c hc => ?_, ih (fun c hc => hne c (by simp [hc])) hr⟩
      rcases Memory.mem_place hc with rfl | hc
      · simp only; omega
      · exact hlt c hc

theorem Memory.canonical_store {n a : Nat} {v : Word} (ha : a < n) {cells : List (Nat × Word)}
    (h : Memory.canonical n cells = true) : Memory.canonical n (Memory.store a v cells) = true := by
  unfold Memory.store
  split
  · exact Memory.canonical_filter _ h
  · rename_i hv
    exact Memory.canonical_place ha hv (by simp) (Memory.canonical_filter _ h)

theorem Memory.wf_iff {m : Memory} :
    m.wf = true ↔ 1 ≤ m.size ∧ m.size ≤ Config.maxCells ∧ Memory.canonical m.size m.cells = true := by
  simp [Memory.wf, and_assoc]

/-- A write keeps the canonical form. -/
theorem Memory.set?_wf {m m' : Memory} {addr : Int} {v : Word} (h : m.set? addr v = some m') (hw : m.wf = true) :
    m'.wf = true := by
  obtain ⟨h1, h2, h3⟩ := Memory.wf_iff.mp hw
  unfold Memory.set? at h
  split at h
  · rename_i hb
    obtain ⟨hb0, hb1⟩ := Memory.inBounds_iff.mp hb
    simp only [Option.some.injEq] at h
    subst h
    exact Memory.wf_iff.mpr ⟨h1, h2, Memory.canonical_store (n := m.size) (by omega) h3⟩
  · cases h

theorem Memory.blank_wf : Memory.blank.wf = true := by decide

/-! ## Constructed memory -/

theorem Memory.mem_entriesFrom {vs : List Word} {a : Nat} {c : Nat × Word} (h : c ∈ Memory.entriesFrom a vs) :
    a ≤ c.1 ∧ c.1 < a + vs.length := by
  induction vs generalizing a with
  | nil => simp [Memory.entriesFrom] at h
  | cons v rest ih =>
    rw [Memory.entriesFrom] at h
    split at h
    · have := ih h; simp only [List.length_cons]; omega
    · rcases List.mem_cons.mp h with rfl | h
      · simp
      · have := ih h; simp only [List.length_cons]; omega

theorem Memory.canonical_entriesFrom (vs : List Word) (a n : Nat) (h : a + vs.length ≤ n) :
    Memory.canonical n (Memory.entriesFrom a vs) = true := by
  induction vs generalizing a with
  | nil => rfl
  | cons v rest ih =>
    simp only [List.length_cons] at h
    rw [Memory.entriesFrom]
    split
    · exact ih (a + 1) (by omega)
    · rename_i hv
      refine Memory.canonical_cons.mpr ⟨hv, by omega, fun c hc => ?_, ih (a + 1) (by omega)⟩
      have := Memory.mem_entriesFrom hc
      omega

theorem Memory.lookup_entriesFrom (vs : List Word) (a k : Nat) :
    Memory.lookup (Memory.entriesFrom a vs) (a + k) = vs.getD k 0 := by
  induction vs generalizing a k with
  | nil => simp [Memory.entriesFrom, Memory.lookup]
  | cons v rest ih =>
    rw [Memory.entriesFrom]
    cases k with
    | zero =>
      split
      · rename_i hv
        have hnone : ∀ (cells : List (Nat × Word)), (∀ c ∈ cells, a + 1 ≤ c.1) → Memory.lookup cells a = 0 := by
          intro cells hc
          induction cells with
          | nil => rfl
          | cons d ds ihd =>
            obtain ⟨k, w⟩ := d
            have : k ≠ a := by have := hc (k, w) (by simp); simp only at this; omega
            simp only [Memory.lookup, this, if_false]
            exact ihd fun c h => hc c (by simp [h])
        show Memory.lookup _ a = v
        rw [hnone (Memory.entriesFrom (a + 1) rest) fun c hc => (Memory.mem_entriesFrom hc).1, hv]
      · simp [Memory.lookup]
    | succ k =>
      have := ih (a + 1) k
      rw [show a + 1 + k = a + (k + 1) by omega] at this
      split
      · simpa using this
      · simpa [Memory.lookup] using this

/-- Cell i of a constructed memory is the i-th value, and no other cell exists (10_state.md R34). -/
theorem Memory.get?_ofCells (vs : List Word) (addr : Int) :
    (Memory.ofCells vs).get? addr = if 0 ≤ addr then vs[addr.toNat]? else none := by
  unfold Memory.get?
  by_cases h0 : 0 ≤ addr
  · by_cases h1 : addr < vs.length
    · have hb : (Memory.ofCells vs).inBounds addr = true := Memory.inBounds_iff.mpr ⟨h0, h1⟩
      have hl := Memory.lookup_entriesFrom vs 0 addr.toNat
      have ht : addr.toNat < vs.length := by omega
      rw [Nat.zero_add] at hl
      rw [if_pos hb, if_pos h0]
      simp only [Memory.ofCells, hl, List.getD_eq_getElem?_getD, List.getElem?_eq_getElem ht, Option.getD_some]
    · have hb : ¬ (Memory.ofCells vs).inBounds addr = true := fun hb => h1 (Memory.inBounds_iff.mp hb).2
      have ht : vs.length ≤ addr.toNat := by omega
      simp [hb, h0, List.getElem?_eq_none ht]
  · have hb : ¬ (Memory.ofCells vs).inBounds addr = true := fun hb => h0 (Memory.inBounds_iff.mp hb).1
    simp [hb, h0]

theorem Memory.ofCells_wf {vs : List Word} (h1 : 1 ≤ vs.length) (h2 : vs.length ≤ Config.maxCells) :
    (Memory.ofCells vs).wf = true :=
  Memory.wf_iff.mpr ⟨h1, h2, Memory.canonical_entriesFrom vs 0 vs.length (by omega)⟩

/-! ## Loading -/

theorem Memory.canonical_mono {n n' : Nat} (h : n ≤ n') {cells : List (Nat × Word)}
    (hc : Memory.canonical n cells = true) : Memory.canonical n' cells = true := by
  induction cells with
  | nil => rfl
  | cons d rest ih =>
    obtain ⟨k, w⟩ := d
    obtain ⟨hw, hk, hlt, hr⟩ := Memory.canonical_cons.mp hc
    exact Memory.canonical_cons.mpr ⟨hw, by omega, hlt, ih hr⟩

theorem Memory.canonical_storeAll {n : Nat} (vs : List Word) (a : Nat) (h : a + vs.length ≤ n)
    {cells : List (Nat × Word)} (hc : Memory.canonical n cells = true) :
    Memory.canonical n (Memory.storeAll a vs cells) = true := by
  induction vs generalizing a cells with
  | nil => exact hc
  | cons v rest ih =>
    simp only [List.length_cons] at h
    exact ih (a + 1) (by omega) (Memory.canonical_store (by omega) hc)

/-- Loading an instruction's cells keeps the canonical form. -/
theorem State.load_wf {s : State} {vs : List Word} (hs : s.mem.wf = true) (hv : vs.length ≤ Config.longestInstr) :
    (s.load vs).mem.wf = true := by
  obtain ⟨h1, h2, h3⟩ := Memory.wf_iff.mp hs
  have hp : s.loadPoint + vs.length ≤ Config.maxCells := by
    have hm : Config.longestInstr ≤ Config.maxCells := by decide
    have hl : Config.longestInstr = 4 := rfl
    unfold State.loadPoint
    split
    · rename_i h
      have h0 : (s.pc.toNat : Int) = s.pc.toInt := by
        have := s.pc.isLt
        rw [BitVec.toInt_eq_toNat_cond] at h ⊢
        split <;> rename_i hc
        · rfl
        · rw [if_neg hc] at h
          omega
      omega
    · omega
  refine Memory.wf_iff.mpr ⟨?_, ?_, ?_⟩
  · simp only [State.load]; omega
  · simp only [State.load]; omega
  · simp only [State.load]
    exact Memory.canonical_storeAll vs _ (by omega) (Memory.canonical_mono (by omega) h3)

end Sys2Proof.Machine
end

