-- ==== Sys2Proof/Laws/State.lean ====
section
/-! SUPPORT. One lemma per field per update of the state, so that no proof unfolds a record update. -/

namespace Sys2Proof.Machine

/-! ### `State.setMem` -/

@[simp] theorem State.setMem_mem (s : State) (m : Memory) : (s.setMem m).mem = m := rfl
@[simp] theorem State.setMem_pc (s : State) (m : Memory) : (s.setMem m).pc = s.pc := rfl
@[simp] theorem State.setMem_status (s : State) (m : Memory) : (s.setMem m).status = s.status := rfl
@[simp] theorem State.setMem_input (s : State) (m : Memory) : (s.setMem m).input = s.input := rfl
@[simp] theorem State.setMem_output (s : State) (m : Memory) : (s.setMem m).output = s.output := rfl
@[simp] theorem State.setMem_waiting (s : State) (m : Memory) : (s.setMem m).waiting = s.waiting := rfl

/-! ### `State.setInput` -/

@[simp] theorem State.setInput_mem (s : State) (src : InputSource) : (s.setInput src).mem = s.mem := rfl
@[simp] theorem State.setInput_pc (s : State) (src : InputSource) : (s.setInput src).pc = s.pc := rfl
@[simp] theorem State.setInput_status (s : State) (src : InputSource) : (s.setInput src).status = s.status := rfl
@[simp] theorem State.setInput_input (s : State) (src : InputSource) : (s.setInput src).input = src := rfl
@[simp] theorem State.setInput_output (s : State) (src : InputSource) : (s.setInput src).output = s.output := rfl
@[simp] theorem State.setInput_waiting (s : State) (src : InputSource) : (s.setInput src).waiting = s.waiting := rfl

/-! ### `State.portWrite` -/

@[simp] theorem State.portWrite_mem (s : State) (v : Word) : (s.portWrite v).mem = s.mem := rfl
@[simp] theorem State.portWrite_pc (s : State) (v : Word) : (s.portWrite v).pc = s.pc := rfl
@[simp] theorem State.portWrite_status (s : State) (v : Word) : (s.portWrite v).status = s.status := rfl
@[simp] theorem State.portWrite_input (s : State) (v : Word) : (s.portWrite v).input = s.input := rfl
@[simp] theorem State.portWrite_output (s : State) (v : Word) : (s.portWrite v).output = s.output ++ [v] := rfl
@[simp] theorem State.portWrite_waiting (s : State) (v : Word) : (s.portWrite v).waiting = s.waiting := rfl

/-! ### `State.advance` -/

@[simp] theorem State.advance_mem (s : State) (n : Nat) : (s.advance n).mem = s.mem := rfl
@[simp] theorem State.advance_pc (s : State) (n : Nat) : (s.advance n).pc = s.pc + BitVec.ofNat 64 n := rfl
@[simp] theorem State.advance_status (s : State) (n : Nat) : (s.advance n).status = s.status := rfl
@[simp] theorem State.advance_input (s : State) (n : Nat) : (s.advance n).input = s.input := rfl
@[simp] theorem State.advance_output (s : State) (n : Nat) : (s.advance n).output = s.output := rfl
@[simp] theorem State.advance_waiting (s : State) (n : Nat) : (s.advance n).waiting = false := rfl

/-! ### `State.jumpTo` -/

@[simp] theorem State.jumpTo_mem (s : State) (target : Word) : (s.jumpTo target).mem = s.mem := rfl
@[simp] theorem State.jumpTo_pc (s : State) (target : Word) : (s.jumpTo target).pc = target := rfl
@[simp] theorem State.jumpTo_status (s : State) (target : Word) : (s.jumpTo target).status = s.status := rfl
@[simp] theorem State.jumpTo_input (s : State) (target : Word) : (s.jumpTo target).input = s.input := rfl
@[simp] theorem State.jumpTo_output (s : State) (target : Word) : (s.jumpTo target).output = s.output := rfl
@[simp] theorem State.jumpTo_waiting (s : State) (target : Word) : (s.jumpTo target).waiting = false := rfl

/-! ### `State.stop` -/

@[simp] theorem State.stop_mem (s : State) : (s.stop).mem = s.mem := rfl
@[simp] theorem State.stop_pc (s : State) : (s.stop).pc = s.pc := rfl
@[simp] theorem State.stop_status (s : State) : (s.stop).status = .halted := rfl
@[simp] theorem State.stop_input (s : State) : (s.stop).input = s.input := rfl
@[simp] theorem State.stop_output (s : State) : (s.stop).output = s.output := rfl
@[simp] theorem State.stop_waiting (s : State) : (s.stop).waiting = false := rfl

/-! ### `State.hold` -/

@[simp] theorem State.hold_mem (s : State) : (s.hold).mem = s.mem := rfl
@[simp] theorem State.hold_pc (s : State) : (s.hold).pc = s.pc := rfl
@[simp] theorem State.hold_status (s : State) : (s.hold).status = s.status := rfl
@[simp] theorem State.hold_input (s : State) : (s.hold).input = s.input := rfl
@[simp] theorem State.hold_output (s : State) : (s.hold).output = s.output := rfl
@[simp] theorem State.hold_waiting (s : State) : (s.hold).waiting = true := rfl

/-! ### `State.raise` -/

@[simp] theorem State.raise_mem (s : State) (r : FaultReason) : (s.raise r).mem = s.mem := rfl
@[simp] theorem State.raise_pc (s : State) (r : FaultReason) : (s.raise r).pc = s.pc := rfl
@[simp] theorem State.raise_status (s : State) (r : FaultReason) : (s.raise r).status = .faulted r := rfl
@[simp] theorem State.raise_input (s : State) (r : FaultReason) : (s.raise r).input = s.input := rfl
@[simp] theorem State.raise_output (s : State) (r : FaultReason) : (s.raise r).output = s.output := rfl
@[simp] theorem State.raise_waiting (s : State) (r : FaultReason) : (s.raise r).waiting = false := rfl

end Sys2Proof.Machine
end

