-- ==== Sys2Proof/Laws/Operations.lean ====
section
/-! SUPPORT. One lemma per shared operation that says everything it can answer; callers cite it and do not unfold. -/

namespace Sys2Proof.Machine

/-! ## Faults and stores -/

theorem fail_eq (s : State) (r : FaultReason) : fail s r = .next (s.raise r) := rfl

/-- `storeAndAdvance` either writes its one cell and advances, or takes OutOfBounds with nothing written. -/
theorem storeAndAdvance_cases {s t : State} {addr v : Word} {n : Nat} (h : storeAndAdvance s addr v n = .next t) :
    (s.mem.inBounds addr.toInt = false ∧ t = s.raise .outOfBounds) ∨
      ∃ m, s.mem.set? addr.toInt v = some m ∧ t = (s.setMem m).advance n := by
  unfold storeAndAdvance at h
  split at h
  · rename_i hn
    exact .inl ⟨Memory.set?_eq_none_iff.mp hn, by cases h; rfl⟩
  · rename_i m hm
    exact .inr ⟨m, hm, by cases h; rfl⟩

theorem storeAndAdvance_inBounds {s : State} {addr : Word} (v : Word) (n : Nat)
    (h : s.mem.inBounds addr.toInt = true) :
    ∃ m, s.mem.set? addr.toInt v = some m ∧ storeAndAdvance s addr v n = .next ((s.setMem m).advance n) := by
  obtain ⟨m, hm⟩ := Memory.set?_isSome v h
  exact ⟨m, hm, by simp [storeAndAdvance, hm]⟩

theorem storeAndAdvance_outOfBounds {s : State} {addr : Word} (v : Word) (n : Nat)
    (h : s.mem.inBounds addr.toInt = false) : storeAndAdvance s addr v n = .next (s.raise .outOfBounds) := by
  simp [storeAndAdvance, Memory.set?_eq_none_iff.mpr h, fail]

/-! ## Modes and operands -/

theorem modeOf_position_iff {d : Digit} : modeOf d = some .position ↔ d = 0 := by
  revert d; decide

theorem modeOf_immediate_iff {d : Digit} : modeOf d = some .immediate ↔ d = 1 := by
  revert d; decide

theorem modeOf_none_iff {d : Digit} : modeOf d = none ↔ d ≠ 0 ∧ d ≠ 1 := by
  revert d; decide

theorem readModeLegal_iff {p : Param} : readModeLegal p = true ↔ p.mode = 0 ∨ p.mode = 1 := by
  obtain ⟨d, v⟩ := p; revert d; simp only [readModeLegal]; decide

theorem writeModeLegal_iff {p : Param} : writeModeLegal p = true ↔ p.mode = 0 := by
  obtain ⟨d, v⟩ := p; revert d; simp only [writeModeLegal]; decide

theorem resolve_immediate (m : Memory) {p : Param} (h : p.mode = 1) : resolve m p = .ok p.raw := by
  simp [resolve, modeOf_immediate_iff.mpr h]

theorem resolve_position {m : Memory} {p : Param} {v : Word} (h : p.mode = 0) (hv : m.get? p.raw.toInt = some v) :
    resolve m p = .ok v := by
  simp [resolve, modeOf_position_iff.mpr h, hv]

/-- What `resolve` can answer (30_encoding.md R88). -/
theorem resolve_cases (m : Memory) (p : Param) :
    (p.mode = 1 ∧ resolve m p = .ok p.raw) ∨
      (p.mode = 0 ∧ ∃ v, m.get? p.raw.toInt = some v ∧ resolve m p = .ok v) ∨
      (p.mode = 0 ∧ m.inBounds p.raw.toInt = false ∧ resolve m p = .error .outOfBounds) ∨
      (p.mode ≠ 0 ∧ p.mode ≠ 1 ∧ resolve m p = .error .invalidAddressingMode) := by
  unfold resolve
  cases hd : modeOf p.mode with
  | none => exact .inr (.inr (.inr ⟨(modeOf_none_iff.mp hd).1, (modeOf_none_iff.mp hd).2, rfl⟩))
  | some md =>
    cases md with
    | immediate => exact .inl ⟨modeOf_immediate_iff.mp hd, rfl⟩
    | position =>
      have h0 := modeOf_position_iff.mp hd
      cases hg : m.get? p.raw.toInt with
      | some v => exact .inr (.inl ⟨h0, v, rfl, rfl⟩)
      | none => exact .inr (.inr (.inl ⟨h0, Memory.get?_eq_none_iff.mp hg, rfl⟩))

theorem resolveTwo_ok_iff {m : Memory} {a b : Param} {va vb : Word} :
    resolveTwo m a b = .ok (va, vb) ↔ resolve m a = .ok va ∧ resolve m b = .ok vb := by
  unfold resolveTwo
  cases resolve m a with
  | error r => simp
  | ok x => cases resolve m b <;> simp

/-- A position-mode parameter whose address is outside memory (60_exceptions.md R191 (c)). -/
def OperandOutside (m : Memory) (p : Param) : Prop := p.mode = 0 ∧ m.inBounds p.raw.toInt = false

/-- With a legal mode, resolution fails only with OutOfBounds, and only for an address outside memory. -/
theorem resolve_error_of_legal {m : Memory} {p : Param} {r : FaultReason} (hl : readModeLegal p = true)
    (h : resolve m p = .error r) : r = .outOfBounds ∧ OperandOutside m p := by
  rcases resolve_cases m p with ⟨-, hp⟩ | ⟨-, v, -, hp⟩ | ⟨h0, hb, hp⟩ | ⟨h0, h1, hp⟩
  · rw [hp] at h; cases h
  · rw [hp] at h; cases h
  · rw [hp] at h; cases h; exact ⟨rfl, h0, hb⟩
  · rcases readModeLegal_iff.mp hl with hm | hm
    · exact absurd hm h0
    · exact absurd hm h1

theorem resolveTwo_error_of_legal {m : Memory} {a b : Param} {r : FaultReason} (ha : readModeLegal a = true)
    (hb : readModeLegal b = true) (h : resolveTwo m a b = .error r) :
    r = .outOfBounds ∧ (OperandOutside m a ∨ OperandOutside m b) := by
  unfold resolveTwo at h
  cases hra : resolve m a with
  | error x =>
    rw [hra] at h; cases h
    exact (resolve_error_of_legal ha hra).imp id .inl
  | ok x =>
    cases hrb : resolve m b with
    | error y =>
      rw [hra, hrb] at h; cases h
      exact (resolve_error_of_legal hb hrb).imp id .inr
    | ok y => rw [hra, hrb] at h; cases h

/-- What `withOperands` can answer: a mode fault, an operand fault, or the handler's answer on the two values. -/
theorem withOperands_cases {legal : Bool} {a b : Param} (hl : legal = true → readModeLegal a = true ∧ readModeLegal b = true)
    (s : State) (handler : Word → Word → Answer) :
    (legal = false ∧ withOperands legal a b s handler = .next (s.raise .invalidAddressingMode)) ∨
      (legal = true ∧ (OperandOutside s.mem a ∨ OperandOutside s.mem b) ∧
        withOperands legal a b s handler = .next (s.raise .outOfBounds)) ∨
      (legal = true ∧ ∃ va vb, resolve s.mem a = .ok va ∧ resolve s.mem b = .ok vb ∧
        withOperands legal a b s handler = handler va vb) := by
  unfold withOperands
  cases legal with
  | false => exact .inl ⟨rfl, rfl⟩
  | true =>
    cases hr : resolveTwo s.mem a b with
    | error r =>
      obtain ⟨rfl, hout⟩ := resolveTwo_error_of_legal (hl rfl).1 (hl rfl).2 hr
      exact .inr (.inl ⟨rfl, hout, by simp [fail]⟩)
    | ok v =>
      obtain ⟨va, vb⟩ := v
      obtain ⟨ha, hb⟩ := resolveTwo_ok_iff.mp hr
      exact .inr (.inr ⟨rfl, va, vb, ha, hb, rfl⟩)

/-- Every way `computeAndStore` can go: an illegal mode, an operand outside memory, a destination outside memory (each a
fault that changes only the status), or one written cell and the advance. -/
theorem computeAndStore_cases {f : Word → Word → Word} {a b dst : Param} {s t : State}
    (h : computeAndStore f a b dst s = .next t) :
    ((readModeLegal a && readModeLegal b && writeModeLegal dst) = false ∧ t = s.raise .invalidAddressingMode) ∨
      ((readModeLegal a && readModeLegal b && writeModeLegal dst) = true ∧
        (((OperandOutside s.mem a ∨ OperandOutside s.mem b) ∧ t = s.raise .outOfBounds) ∨
          (s.mem.inBounds dst.raw.toInt = false ∧ t = s.raise .outOfBounds) ∨
          ∃ va vb m, resolve s.mem a = .ok va ∧ resolve s.mem b = .ok vb ∧
            s.mem.set? dst.raw.toInt (f va vb) = some m ∧ t = (s.setMem m).advance 4)) := by
  unfold computeAndStore at h
  rcases withOperands_cases (legal := readModeLegal a && readModeLegal b && writeModeLegal dst) (a := a) (b := b)
      (by simp only [Bool.and_eq_true]; exact fun hl => hl.1) s
      (fun va vb => storeAndAdvance s dst.raw (f va vb) 4) with
    ⟨hl, hw⟩ | ⟨hl, hout, hw⟩ | ⟨hl, va, vb, ha, hb, hw⟩
  · rw [hw] at h; cases h; exact .inl ⟨hl, rfl⟩
  · rw [hw] at h; cases h; exact .inr ⟨hl, .inl ⟨hout, rfl⟩⟩
  · rw [hw] at h
    rcases storeAndAdvance_cases h with ⟨hd, ht⟩ | ⟨m, hm, ht⟩
    · exact .inr ⟨hl, .inr (.inl ⟨hd, ht⟩)⟩
    · exact .inr ⟨hl, .inr (.inr ⟨va, vb, m, ha, hb, hm, ht⟩)⟩

/-- Every way `jumpWhen` can go: an illegal mode or an operand outside memory (each a fault that changes only the status),
the jump, or the advance by 3. -/
theorem jumpWhen_cases {test : Word → Bool} {a b : Param} {s t : State} (h : jumpWhen test a b s = .next t) :
    ((readModeLegal a && readModeLegal b) = false ∧ t = s.raise .invalidAddressingMode) ∨
      ((readModeLegal a && readModeLegal b) = true ∧
        (((OperandOutside s.mem a ∨ OperandOutside s.mem b) ∧ t = s.raise .outOfBounds) ∨
          ∃ va vb, resolve s.mem a = .ok va ∧ resolve s.mem b = .ok vb ∧
            t = if test va then s.jumpTo vb else s.advance 3)) := by
  unfold jumpWhen at h
  rcases withOperands_cases (legal := readModeLegal a && readModeLegal b) (a := a) (b := b)
      (by simp only [Bool.and_eq_true]; exact id) s
      (fun va vb => .next (if test va then s.jumpTo vb else s.advance 3)) with
    ⟨hl, hw⟩ | ⟨hl, hout, hw⟩ | ⟨hl, va, vb, ha, hb, hw⟩
  · rw [hw] at h; cases h; exact .inl ⟨hl, rfl⟩
  · rw [hw] at h; cases h; exact .inr ⟨hl, .inl ⟨hout, rfl⟩⟩
  · rw [hw] at h; cases h; exact .inr ⟨hl, .inr ⟨va, vb, ha, hb, rfl⟩⟩

/-! ## The port -/

/-- Everything a port read can do (20_memory.md R59): it drops a front run `bad` of malformed items, and then delivers
the first well-formed one or, with nothing left, is exhausted or waits. -/
theorem portReadFrom_cases (ended : Bool) (items : List InputItem) (c : Nat) :
    ∃ bad, (∀ x ∈ bad, x.word? = none) ∧
      ((∃ x v rest, items = bad ++ x :: rest ∧ x.word? = some v ∧
          portReadFrom ended items c = (.value v, { pending := rest, consumed := c + bad.length + 1, ended := ended })) ∨
        (items = bad ∧ portReadFrom ended items c =
          (if ended then .exhausted else .wait, { pending := [], consumed := c + bad.length, ended := ended }))) := by
  induction items generalizing c with
  | nil => exact ⟨[], by simp, .inr ⟨rfl, by simp [portReadFrom]⟩⟩
  | cons x rest ih =>
    cases hx : x.word? with
    | some v => exact ⟨[], by simp, .inl ⟨x, v, rest, rfl, hx, by simp [portReadFrom, hx]⟩⟩
    | none =>
      obtain ⟨bad, hbad, hcase⟩ := ih (c + 1)
      refine ⟨x :: bad, by simpa [hx] using hbad, ?_⟩
      rcases hcase with ⟨y, v, tail, hi, hy, hp⟩ | ⟨hi, hp⟩
      · refine .inl ⟨y, v, tail, by rw [hi]; rfl, hy, ?_⟩
        rw [portReadFrom, hx]
        simp only [hp, List.length_cons, Prod.mk.injEq, true_and]
        congr 1
        omega
      · refine .inr ⟨by rw [hi], ?_⟩
        rw [portReadFrom, hx]
        simp only [hp, List.length_cons, Prod.mk.injEq, true_and]
        congr 1
        omega

end Sys2Proof.Machine
end

