-- ==== Sys2Proof/Laws/Exec.lean ====
section
/-! SUPPORT. Everything a step can do, said once: one inversion lemma per meaning that is not already one shared operation,
and one for the step. -/

namespace Sys2Proof.Machine

/-- Every way OUT can go: an illegal mode, an operand outside memory, or the value appended. -/
theorem execOut_cases {a : Param} {s t : State} (h : execOut a s = .next t) :
    (readModeLegal a = false ∧ t = s.raise .invalidAddressingMode) ∨
      (readModeLegal a = true ∧ ((OperandOutside s.mem a ∧ t = s.raise .outOfBounds) ∨
        ∃ v, resolve s.mem a = .ok v ∧ t = (s.portWrite v).advance 2)) := by
  unfold execOut at h
  split at h
  · rename_i hl
    cases hr : resolve s.mem a with
    | error r =>
      obtain ⟨rfl, hout⟩ := resolve_error_of_legal hl hr
      rw [hr] at h; cases h; exact .inr ⟨hl, .inl ⟨hout, rfl⟩⟩
    | ok v => rw [hr] at h; cases h; exact .inr ⟨hl, .inr ⟨v, rfl, rfl⟩⟩
  · rename_i hl
    cases h; exact .inl ⟨by simpa using hl, rfl⟩

/-- Every way IN can go: an illegal mode; the wait; the end of the source; a value for a destination outside memory; a
value stored. -/
theorem execInp_cases {dst : Param} {s t : State} (h : execInp dst s = .next t) :
    (dst.mode ≠ 0 ∧ t = s.raise .invalidAddressingMode) ∨
      (dst.mode = 0 ∧ ∃ src, s.input.read = (.wait, src) ∧ t = (s.setInput src).hold) ∨
      (dst.mode = 0 ∧ ∃ src, s.input.read = (.exhausted, src) ∧ t = (s.setInput src).raise .inputExhausted) ∨
      (dst.mode = 0 ∧ ∃ v src, s.input.read = (.value v, src) ∧ s.mem.inBounds dst.raw.toInt = false ∧
        t = (s.setInput src).raise .outOfBounds) ∨
      (dst.mode = 0 ∧ ∃ v src m, s.input.read = (.value v, src) ∧ s.mem.set? dst.raw.toInt v = some m ∧
        t = ((s.setInput src).setMem m).advance 2) := by
  unfold execInp at h
  split at h
  · rename_i hm
    have h0 := writeModeLegal_iff.mp hm
    split at h
    · rename_i src hr; cases h; exact .inr (.inl ⟨h0, src, hr, rfl⟩)
    · rename_i src hr; cases h; exact .inr (.inr (.inl ⟨h0, src, hr, rfl⟩))
    · rename_i v src hr
      rcases storeAndAdvance_cases h with ⟨hd, ht⟩ | ⟨m, hset, ht⟩
      · exact .inr (.inr (.inr (.inl ⟨h0, v, src, hr, hd, ht⟩)))
      · exact .inr (.inr (.inr (.inr ⟨h0, v, src, m, hr, hset, ht⟩)))
  · rename_i hm
    cases h
    exact .inl ⟨fun h0 => hm (writeModeLegal_iff.mpr h0), rfl⟩

/-- A step that answers a next state was made by a Running machine: it ran the fetched instruction, or took the fetch's
fault. -/
theorem step_cases {s t : State} (h : step s = .next t) :
    s.status = .running ∧
      ((∃ i, s.fetch = .ok i ∧ exec i s = .next t) ∨ ∃ r, s.fetch = .error r ∧ t = s.raise r) := by
  unfold step at h
  split at h
  · rename_i hs
    refine ⟨hs, ?_⟩
    split at h
    · rename_i i hf; exact .inl ⟨i, hf, h⟩
    · rename_i r hf; cases h; exact .inr ⟨r, hf, rfl⟩
  · cases h
  · cases h

/-- The fetch's faults: never a mode fault and never an exhausted input. -/
theorem fetch_error {s : State} {r : FaultReason} (h : s.fetch = .error r) : r = .outOfBounds ∨ r = .invalidOpcode := by
  unfold State.fetch at h
  split at h
  · cases h
  · rename_i e _
    cases h
    cases e
    · exact .inl rfl
    · exact .inr rfl
    · exact .inl rfl

/-- What is fetched depends on memory and `pc` alone (10_state.md R32, 20_memory.md R65). -/
theorem fetch_congr {s t : State} (hm : t.mem = s.mem) (hp : t.pc = s.pc) : t.fetch = s.fetch := by
  simp [State.fetch, State.fetchCells, hm, hp]

end Sys2Proof.Machine
end

