-- ==== Sys2Proof/Laws/Host.lean ====
section
/-! SUPPORT. What a host command can do, said once for each. -/

namespace Sys2Proof.Machine

@[simp] theorem State.held_iff {s : State} : s.held = true ↔ s.status = .running ∧ s.waiting = true := by
  simp [State.held]

/-- Every way a step can be replied to. -/
theorem stepReply_cases (s : State) :
    (∃ t, step s = .next t ∧ stepReply s = (t, if t.waiting then .waiting else .status t.status)) ∨
      (step s = .fault .alreadyTerminated ∧ stepReply s = (s, .alreadyTerminated)) ∨
        (∃ r, step s = .refused r) ∧ stepReply s = (s, .noMove) := by
  unfold stepReply
  cases h : step s with
  | next t => exact .inl ⟨t, rfl, rfl⟩
  | fault f => cases f; exact .inr (.inl ⟨rfl, rfl⟩)
  | refused r => exact .inr (.inr ⟨⟨r, rfl⟩, rfl⟩)

theorem hostStep_of_held {s : State} (h : s.held = true) : hostStep s = (s, .noMove) := by rw [hostStep, if_pos h]

theorem hostStep_of_not_held {s : State} (h : ¬ s.held = true) : hostStep s = stepReply s := by rw [hostStep, if_neg h]

theorem hostResume_of_held {s : State} (h : s.held = true) : hostResume s = stepReply s := by rw [hostResume, if_pos h]

theorem hostResume_of_not_held {s : State} (h : ¬ s.held = true) : hostResume s = (s, .noMove) := by
  rw [hostResume, if_neg h]

theorem hostRun_of_held {s : State} (fuel : Nat) (h : s.held = true) : hostRun fuel s = (s, .noMove) := by
  rw [hostRun, if_pos h]

/-- A run goes on exactly from a Running state in which no step is held. -/
theorem runLoop_succ (fuel : Nat) (s : State) : runLoop (fuel + 1) s =
    if s.status = .running ∧ ¬ s.held = true then runLoop fuel (stepReply s).1 else (s, runReply s) := by
  have hc : (s.status = .running ∧ s.waiting = false) ↔ (s.status = .running ∧ ¬ s.held = true) := by
    rw [State.held_iff]
    exact ⟨fun ⟨h, hw⟩ => ⟨h, by simp [hw]⟩, fun ⟨h, hw⟩ => ⟨h, by simpa [h] using hw⟩⟩
  exact if_congr hc rfl rfl

end Sys2Proof.Machine
end

