-- ==== Sys2Proof/Laws/PerInstr.lean ====
section
/-! SUPPORT. Facts proved once per instruction. `EncodedWord`: the instruction word the encoder writes is a legal-sized
decimal word below 100000 whose two low digits are the instruction's opcode, and the cells are 1 + n (30_encoding.md R81,
R89, R90). -/

namespace Sys2Proof

/-- The numeric value of an encoded word: nothing of it is lost in 64 bits. -/
theorem instrWord_toNat {i : Instr} (h : i.opcode.number + modeDigits 2 i.params < 100000) :
    (instrWord i).toNat = i.opcode.number + modeDigits 2 i.params := by
  rw [instrWord, BitVec.toNat_ofNat]
  exact Nat.mod_eq_of_lt (by omega)

/-- A word of value `n` below 100000 has the opcode its two low digits name. -/
theorem opcodeOf_of_toNat {w : Word} {n : Nat} (hw : w.toNat = n) (hn : n < 100000) :
    opcodeOf w = Opcode.ofNumber? (n % 100) := by
  have : ¬ w.toInt < 0 := by
    rw [BitVec.toInt_eq_toNat_cond]
    split <;> omega
  rw [opcodeOf, if_neg this, hw]

namespace Laws.EncodedWord

/-- The instruction word is below 100000, its two low digits are the opcode, and the instruction has 1 + n cells. -/
def Statement (i : Instr) : Prop :=
  (instrWord i).toNat = i.opcode.number + modeDigits 2 i.params ∧ (instrWord i).toNat < 100000 ∧
    opcodeOf (instrWord i) = some i.opcode ∧ (encode i).length = 1 + i.opcode.paramCount

/-- The common part of the nine cases. -/
theorem of_bounds {i : Instr} (h : i.opcode.number + modeDigits 2 i.params < 100000)
    (hop : Opcode.ofNumber? ((i.opcode.number + modeDigits 2 i.params) % 100) = some i.opcode)
    (hn : i.params.length = i.opcode.paramCount) : Statement i :=
  ⟨instrWord_toNat h, (instrWord_toNat h).trans_lt h, (opcodeOf_of_toNat (instrWord_toNat h) h).trans hop,
    by simp [encode, hn]; omega⟩

/-- Three mode digits take less than the ten-thousands' place leaves, and no units or tens. -/
theorem digits_three (a b d : Param) :
    modeDigits 2 [a, b, d] < 99901 ∧ modeDigits 2 [a, b, d] % 100 = 0 := by
  have := a.mode.isLt; have := b.mode.isLt; have := d.mode.isLt
  simp only [modeDigits]; omega

theorem digits_two (a b : Param) : modeDigits 2 [a, b] < 99901 ∧ modeDigits 2 [a, b] % 100 = 0 := by
  have := a.mode.isLt; have := b.mode.isLt
  simp only [modeDigits]; omega

theorem digits_one (a : Param) : modeDigits 2 [a] < 99901 ∧ modeDigits 2 [a] % 100 = 0 := by
  have := a.mode.isLt
  simp only [modeDigits]; omega

/-- A sum of an opcode number and mode digits ends in the opcode number. -/
theorem ends_in {k d : Nat} (hk : k < 100) (hd : d % 100 = 0) : (k + d) % 100 = k := by omega

theorem add (a b dst : Param) : Statement (.add a b dst) := by
  obtain ⟨h1, h2⟩ := digits_three a b dst
  exact of_bounds (Nat.lt_of_lt_of_le (Nat.add_lt_add_left h1 1) (by decide))
    (congrArg Opcode.ofNumber? (ends_in (k := 1) (by decide) h2)) rfl

theorem mult (a b dst : Param) : Statement (.mult a b dst) := by
  obtain ⟨h1, h2⟩ := digits_three a b dst
  exact of_bounds (Nat.lt_of_lt_of_le (Nat.add_lt_add_left h1 2) (by decide))
    (congrArg Opcode.ofNumber? (ends_in (k := 2) (by decide) h2)) rfl

theorem inp (dst : Param) : Statement (.inp dst) := by
  obtain ⟨h1, h2⟩ := digits_one dst
  exact of_bounds (Nat.lt_of_lt_of_le (Nat.add_lt_add_left h1 3) (by decide))
    (congrArg Opcode.ofNumber? (ends_in (k := 3) (by decide) h2)) rfl

theorem out (a : Param) : Statement (.out a) := by
  obtain ⟨h1, h2⟩ := digits_one a
  exact of_bounds (Nat.lt_of_lt_of_le (Nat.add_lt_add_left h1 4) (by decide))
    (congrArg Opcode.ofNumber? (ends_in (k := 4) (by decide) h2)) rfl

theorem jt (a b : Param) : Statement (.jt a b) := by
  obtain ⟨h1, h2⟩ := digits_two a b
  exact of_bounds (Nat.lt_of_lt_of_le (Nat.add_lt_add_left h1 5) (by decide))
    (congrArg Opcode.ofNumber? (ends_in (k := 5) (by decide) h2)) rfl

theorem jf (a b : Param) : Statement (.jf a b) := by
  obtain ⟨h1, h2⟩ := digits_two a b
  exact of_bounds (Nat.lt_of_lt_of_le (Nat.add_lt_add_left h1 6) (by decide))
    (congrArg Opcode.ofNumber? (ends_in (k := 6) (by decide) h2)) rfl

theorem lt (a b dst : Param) : Statement (.lt a b dst) := by
  obtain ⟨h1, h2⟩ := digits_three a b dst
  exact of_bounds (Nat.lt_of_lt_of_le (Nat.add_lt_add_left h1 7) (by decide))
    (congrArg Opcode.ofNumber? (ends_in (k := 7) (by decide) h2)) rfl

theorem eq (a b dst : Param) : Statement (.eq a b dst) := by
  obtain ⟨h1, h2⟩ := digits_three a b dst
  exact of_bounds (Nat.lt_of_lt_of_le (Nat.add_lt_add_left h1 8) (by decide))
    (congrArg Opcode.ofNumber? (ends_in (k := 8) (by decide) h2)) rfl

theorem halt : Statement .halt := by unfold Statement; decide

end Laws.EncodedWord

end Sys2Proof
end

