-- ==== Sys2Proof/Tests/Slice0.lean ====
section
/-! SUPPORT. Tests. Every expected result is taken from spec/ (95_test_vectors.md, or the rule named), none from the model.
Then, for every obligation with hypotheses, a named witness that meets all of them together. -/

namespace Sys2Proof.Tests

open Sys2Proof Sys2Proof.Machine Sys2Proof.Claims

/-- The machine constructed from these cells, with an input source that holds these items and has ended. -/
def machine (vs : List Int) (items : List InputItem := []) : State := State.ofCells (vs.map wrap) items true

/-- The next state of an answer. -/
def after : Answer → Option State
  | .next t => some t
  | .fault _ => none
  | .refused _ => none

/-- The answer is a next state of which the test holds. -/
def gives (o : Answer) (p : State → Bool) : Bool := (after o).any p

theorem gives_next {o : Answer} {p : State → Bool} (h : gives o p = true) : ∃ t, o = .next t ∧ p t = true := by
  cases o with
  | next t => exact ⟨t, rfl, h⟩
  | fault r => cases h
  | refused r => cases h

/-! ## WellFormed: one ill-formed term for each check, which the check refuses (30_encoding.md R87) -/

theorem test_wf_accepts : (Instr.add ⟨0, 5⟩ ⟨1, 6⟩ ⟨0, 7⟩).wellFormed = true := by decide
theorem test_wf_add_a : (Instr.add ⟨2, 5⟩ ⟨1, 6⟩ ⟨0, 7⟩).wellFormed = false := by decide
theorem test_wf_add_b : (Instr.add ⟨0, 5⟩ ⟨9, 6⟩ ⟨0, 7⟩).wellFormed = false := by decide
theorem test_wf_add_dst : (Instr.add ⟨0, 5⟩ ⟨1, 6⟩ ⟨1, 7⟩).wellFormed = false := by decide
theorem test_wf_mult_dst : (Instr.mult ⟨0, 5⟩ ⟨1, 6⟩ ⟨2, 7⟩).wellFormed = false := by decide
theorem test_wf_inp_dst : (Instr.inp ⟨1, 5⟩).wellFormed = false := by decide
theorem test_wf_out_a : (Instr.out ⟨2, 5⟩).wellFormed = false := by decide
theorem test_wf_jt_b : (Instr.jt ⟨1, 5⟩ ⟨3, 5⟩).wellFormed = false := by decide
theorem test_wf_jf_a : (Instr.jf ⟨4, 5⟩ ⟨0, 5⟩).wellFormed = false := by decide
theorem test_wf_lt_dst : (Instr.lt ⟨0, 5⟩ ⟨0, 5⟩ ⟨1, 5⟩).wellFormed = false := by decide
theorem test_wf_eq_a : (Instr.eq ⟨7, 5⟩ ⟨0, 5⟩ ⟨0, 5⟩).wellFormed = false := by decide

/-! ## Decoding, every constructor by cells written out from 30_encoding.md R89, R94 and 95_test_vectors.md 2.1 -/

/-- `ADD @9, @10, @3` is 1,9,10,3 (R94). -/
theorem test_decode_add : decode [1, 9, 10, 3] = .ok (.add ⟨0, 9⟩ ⟨0, 10⟩ ⟨0, 3⟩, []) := by decide
/-- 1002 is opcode 2, modes [0,1,0] (S2); `MULT @4, #3, @4` is 1002,4,3,4 (R94). -/
theorem test_decode_mult : decode [1002, 4, 3, 4] = .ok (.mult ⟨0, 4⟩ ⟨1, 3⟩ ⟨0, 4⟩, []) := by decide
/-- `IN @20` is 3,20 (R94). -/
theorem test_decode_inp : decode [3, 20, 7] = .ok (.inp ⟨0, 20⟩, [7]) := by decide
/-- `OUT #-7` is 104,-7 (R94); 11104 decodes to (4, [1]) (V-D12). -/
theorem test_decode_out : decode [104, -7] = .ok (.out ⟨1, -7⟩, []) ∧ decode [11104, 5] = .ok (.out ⟨1, 5⟩, []) := by
  decide
/-- `JT #1, #4` is 1105,1,4 (R94). -/
theorem test_decode_jt : decode [1105, 1, 4] = .ok (.jt ⟨1, 1⟩ ⟨1, 4⟩, []) := by decide
/-- 1006 is (6, [0,1]) (V-D7). -/
theorem test_decode_jf : decode [1006, 16, 12] = .ok (.jf ⟨0, 16⟩ ⟨1, 12⟩, []) := by decide
/-- `LT @15, #8, @16` is 1007,15,8,16 (P3). -/
theorem test_decode_lt : decode [1007, 15, 8, 16] = .ok (.lt ⟨0, 15⟩ ⟨1, 8⟩ ⟨0, 16⟩, []) := by decide
/-- Legal word 108 (R89): m_1 = 1, m_2 = 0. -/
theorem test_decode_eq : decode [108, 5, 6, 0] = .ok (.eq ⟨1, 5⟩ ⟨0, 6⟩ ⟨0, 0⟩, []) := by decide
/-- 99 is (99, []) and so is 1199 (V-D9, V-D10). -/
theorem test_decode_halt : decode [99] = .ok (.halt, []) ∧ decode [1199] = .ok (.halt, []) := by decide
/-- V-D13 and V-D14: illegal digits are decoded, step 5a judges them; V-D11: digit position 5 is ignored. -/
theorem test_decode_digits : decode [10001, 0, 0, 0] = .ok (.add ⟨0, 0⟩ ⟨0, 0⟩ ⟨1, 0⟩, []) ∧
    decode [204, 0] = .ok (.out ⟨2, 0⟩, []) ∧ decode [100001, 0, 0, 0] = .ok (.add ⟨0, 0⟩ ⟨0, 0⟩ ⟨0, 0⟩, []) := by
  decide
/-- V-D15 to V-D20, by name; V-F4: a known opcode that does not fit. -/
theorem test_decode_rejects : ([0, 9, 98, 100, -1, -99] : List Word).all
    (fun w => decode [w, 0, 0, 0] = .error .invalidOpcode) ∧ decode [1, 0, 0] = .error .doesNotFit ∧
    decode [] = .error .noWord := by decide
/-- `ADD #1100, #1, @4` is 1101,1100,1,4 (P4). -/
theorem test_encode : encode (.add ⟨1, 1100⟩ ⟨1, 1⟩ ⟨0, 4⟩) = [1101, 1100, 1, 4] := by decide

/-! ## One step of each instruction -/

/-- S3: M[0] + M[0] into M[0], pc 4. -/
theorem test_add : gives (step (machine [1, 0, 0, 0, 99])) (fun t => t.mem.get? 0 = some 2 ∧ t.pc = 4) = true := by
  decide
/-- V-A6: overflow wraps. -/
theorem test_add_wraps : gives (step (machine [1101, 9223372036854775807, 1, 0, 99]))
    (fun t => t.mem.get? 0 = some (wrap (-9223372036854775808))) = true := by decide
/-- V-A3: negative times positive. -/
theorem test_mult : gives (step (machine [1102, -6, 7, 0, 99])) (fun t => t.mem.get? 0 = some (-42)) = true := by decide
/-- V-A9: the product wraps. -/
theorem test_mult_wraps : gives (step (machine [1102, 3037000500, 3037000500, 0, 99]))
    (fun t => t.mem.get? 0 = some (wrap (-9223372036709301616))) = true := by decide
/-- V-I6: the malformed item is dropped. -/
theorem test_inp : gives (step (machine [3, 0, 99] [.malformed, .integer (-5)]))
    (fun t => t.mem.get? 0 = some (-5) ∧ t.pc = 2 ∧ t.input.pending = []) = true := by decide
/-- V-I4: the item is lost when the destination is outside. -/
theorem test_inp_lost : gives (step (machine [3, 7, 99] [.integer 42, .integer 43]))
    (fun t => t.status = .faulted .outOfBounds ∧ t.pc = 0 ∧ t.input.pending = [.integer 43]) = true := by decide
/-- V-O1. -/
theorem test_out : gives (step (machine [104, -7, 99])) (fun t => t.output = [-7] ∧ t.pc = 2) = true := by decide
/-- V-O3: the operand's address is N. -/
theorem test_out_bounds : gives (step (machine [4, 3, 99]))
    (fun t => t.status = .faulted .outOfBounds ∧ t.output = [] ∧ t.pc = 0) = true := by decide
/-- V-J8, first step: the target is written unchecked. -/
theorem test_jt : gives (step (machine [1105, 1, -1])) (fun t => t.pc = -1 ∧ t.status = .running) = true := by decide
/-- V-J6: b is resolved although the jump is not taken. -/
theorem test_jt_resolves : gives (step (machine [5, 3, 100, 0, 99]))
    (fun t => t.status = .faulted .outOfBounds ∧ t.pc = 0) = true := by decide
/-- V-J2, first step. -/
theorem test_jf : gives (step (machine [1106, 0, 4, 99, 99])) (fun t => t.pc = 4) = true := by decide
/-- V-J3, first step. -/
theorem test_jf_falls : gives (step (machine [1106, 5, 4, 99, 99])) (fun t => t.pc = 3) = true := by decide
/-- V-C4: the extremes, signed. -/
theorem test_lt : gives (step (machine [1107, -9223372036854775808, 9223372036854775807, 5, 99, 7]))
    (fun t => t.mem.get? 5 = some 1) = true := by decide
/-- V-C2: equal is not less, and 0 is written. -/
theorem test_lt_equal : gives (step (machine [1107, 4, 4, 5, 99, 7])) (fun t => t.mem.get? 5 = some 0) = true := by decide
/-- V-C5: the instruction overwrites its own word and still advances by 4. -/
theorem test_eq : gives (step (machine [8, 5, 6, 0, 99, 4, 4])) (fun t => t.mem.get? 0 = some 1 ∧ t.pc = 4) = true := by
  decide
/-- V-C6. -/
theorem test_eq_sign : gives (step (machine [1108, -1, 1, 5, 99, 7])) (fun t => t.mem.get? 5 = some 0) = true := by decide
/-- V-F16: 1199 halts, pc stays. -/
theorem test_halt : gives (step (machine [1199])) (fun t => t.status = .halted ∧ t.pc = 0) = true := by decide
/-- S9: a further step fails with AlreadyTerminated and changes nothing. -/
theorem test_halted_step : hostStep { machine [99] with status := .halted } =
    ({ machine [99] with status := .halted }, .alreadyTerminated) := by decide

/-! ## The order of the checks (95_test_vectors.md 2.6) and the host -/

/-- V-F5: fit beats mode; V-F6: opcode beats fit; V-F10: mode beats address. -/
theorem test_check_order :
    gives (step (machine [10001, 0, 0])) (fun t => t.status = .faulted .outOfBounds) = true ∧
    gives (step (machine [55, 0, 0])) (fun t => t.status = .faulted .invalidOpcode) = true ∧
    gives (step (machine [2001, 100, 0, 0, 99])) (fun t => t.status = .faulted .invalidAddressingMode) = true := by
  decide
/-- V-I3: an empty source that has not ended: the step waits, Running, nothing changed. -/
theorem test_wait : gives (step (State.ofCells [3, 0, 99] [] false))
    (fun t => t.status = .running ∧ t.pc = 0 ∧ t.mem = Memory.ofCells [3, 0, 99] ∧ t.waiting = true) = true := by decide
/-- 60_exceptions.md R207: ending the source of a waiting IN takes InputExhausted. -/
theorem test_wait_ends : gives (step ({ State.ofCells [3, 0, 99] [] false with waiting := true }.afterMove .endInput))
    (fun t => t.status = .faulted .inputExhausted ∧ t.pc = 0 ∧ t.waiting = false) = true := by decide
/-- 70_reset_and_hazards.md R244: no Step and no Run during the input wait; R59: the held step goes on when an item comes. -/
theorem test_no_command_in_wait :
    hostStep (hostStep (State.ofCells [3, 0, 99] [] false)).1 = ((hostStep (State.ofCells [3, 0, 99] [] false)).1, .noMove) ∧
    (hostRun 5 (hostStep (State.ofCells [3, 0, 99] [] false)).1).2 = .noMove ∧
    (hostRun 5 (State.ofCells [3, 0, 99] [] false)).2 = .waiting ∧
    (hostResume ((hostRun 5 (State.ofCells [3, 0, 99] [] false)).1.afterMove (.supply [.integer 7]))).1.mem.get? 0 = some 7
    := by decide
/-- 60_exceptions.md R190: the five codes. -/
theorem test_codes : [FaultReason.outOfBounds, .invalidOpcode, .invalidAddressingMode, .inputExhausted].map FaultReason.code
    = [1, 2, 3, 4] ∧ (hostRun 3 { machine [99] with status := .halted }).2.errorCode = some 5 := by decide
/-- S10: GetMemory(-1) and SetMemory(5, 7) on five cells are error replies, and the machine stays Running. -/
theorem test_host_bounds : hostGet (machine [1, 0, 0, 0, 99]) (-1) = .outOfBounds ∧
    hostSet (machine [1, 0, 0, 0, 99]) 5 7 = (machine [1, 0, 0, 0, 99], .outOfBounds) ∧
    hostSet (machine [1, 0, 0, 0, 99]) 0 7 = (machine [7, 0, 0, 0, 99], .done) := by decide
/-- V-H4: text that is refused, and text that is not. -/
theorem test_text : (State.construct [] [] true).isNone ∧ (State.construct ['1', ',', ',', '2'] [] true).isNone ∧
    (State.construct ['1', ',', '2', ','] [] true).isNone ∧ (State.construct ['1', ',', ' ', '2'] [] true).isNone ∧
    (State.construct ['+', '1'] [] true).isNone ∧ State.construct ['-', '0'] [] true = some (machine [0]) ∧
    State.construct ['0', '0', '7', ',', '-', '5'] [] true = some (machine [7, -5]) := by decide
/-- A placed instruction runs as the first one after reset. -/
theorem test_fetch_word : gives (step (State.reset.withFetchWord 64 1106)) (fun t => t.pc = 0 ∧ t.status = .running) = true
    ∧ decodeTableWord 64 1106 = some (.jf ⟨1, 0⟩ ⟨1, 0⟩) := by decide

/-! ## Witnesses: for each obligation with hypotheses, something that meets them all -/

/-- Cells for the witnesses: position operands 4 and 5, last cell 6. -/
def w : State := machine [1, 4, 5, 6, 30, -40, 0]

theorem wit_operands : Operand w.mem ⟨0, 4⟩ 30 ∧ Operand w.mem ⟨1, 7⟩ 7 ∧ Operand w.mem ⟨0, 5⟩ (-40) :=
  ⟨.inl ⟨rfl, by decide⟩, .inr ⟨rfl, rfl⟩, .inl ⟨rfl, by decide⟩⟩

theorem witness_DecodedCellsAreWordThenParameters : ∃ cells rest i, decode cells = .ok (i, rest) :=
  ⟨[211101, 1, 2, 3, 4], [4], .add ⟨1, 1⟩ ⟨1, 2⟩ ⟨1, 3⟩, by decide⟩

theorem witness_UnknownOpcodeTakesInvalidOpcode : ∃ (s : State) (raw : Word), s.status = .running ∧
    s.mem.get? s.pc.toInt = some raw ∧ 0 ≤ raw.toInt ∧ raw.toInt % 100 ∉ [1, 2, 3, 4, 5, 6, 7, 8, 99] :=
  ⟨machine [0], 0, by decide⟩

theorem witness_NegativeWordTakesInvalidOpcode : ∃ (s : State) (raw : Word), s.status = .running ∧
    s.mem.get? s.pc.toInt = some raw ∧ raw.toInt < 0 := ⟨machine [-1], -1, by decide⟩

theorem witness_StepRunsTheDecodedInstr : ∃ (s : State) (i : Instr) (rest : List Word), s.status = .running ∧
    decode s.fetchCells = .ok (i, rest) := ⟨machine [99, 5], .halt, [5], by decide⟩

theorem witness_FetchReadsCellsFromPc : 0 ≤ w.pc.toInt ∧ w.fetchCells[3]? = some 6 ∧ w.fetchCells[4]? = none := by decide

theorem witness_FetchSeesEveryStore : ∃ (s : State) (m : Memory) (addr : Int) (v x : Word) (k : Nat),
    s.mem.set? addr v = some m ∧ s.fetchCells[k]? = some x ∧ addr = s.pc.toInt + k :=
  ⟨machine [3, 0, 99], Memory.ofCells [3, 0, 7], 2, 7, 99, 2, by decide⟩

theorem witness_FetchSeesEveryStore_other : ∃ (s : State) (m : Memory) (addr : Int) (v x : Word) (k : Nat),
    s.mem.set? addr v = some m ∧ s.fetchCells[k]? = some x ∧ addr ≠ s.pc.toInt + k :=
  ⟨machine [3, 0, 99], Memory.ofCells [3, 0, 7], 2, 7, 3, 0, by decide⟩

/-- pc = N, and pc = -1. -/
theorem witness_PcOutsideMemoryTakesOutOfBounds : ∃ s t : State, s.status = .running ∧
    ¬ (0 ≤ s.pc.toInt ∧ s.pc.toInt < s.mem.size) ∧ t.status = .running ∧
    ¬ (0 ≤ t.pc.toInt ∧ t.pc.toInt < t.mem.size) :=
  ⟨{ machine [99] with pc := 1 }, { machine [99] with pc := -1 }, by decide⟩

/-- N = 3 does not hold an ADD, N = 4 does, N = 1 holds a HALT. -/
theorem witness_InstrMustFitInMemory :
    (machine [1, 0, 0]).status = .running ∧ (machine [1, 0, 0]).mem.get? 0 = some 1 ∧ opcodeOf 1 = some .add ∧
    (machine [1, 0, 0]).pc.toInt + 1 + Opcode.add.paramCount > (machine [1, 0, 0]).mem.size ∧
    (machine [1, 0, 0, 0]).mem.get? 0 = some 1 ∧
    (machine [1, 0, 0, 0]).pc.toInt + 1 + Opcode.add.paramCount ≤ (machine [1, 0, 0, 0]).mem.size ∧
    (machine [99]).mem.get? 0 = some 99 ∧ opcodeOf 99 = some .halt := by decide

theorem witness_TerminalStepIsAlreadyTerminated : ∃ s : State, s.status ≠ .running :=
  ⟨{ w with status := .faulted .inputExhausted }, by decide⟩

theorem witness_RunningStepAnswersNext : w.status = .running := rfl

/-- Digits 0, 1 and 2; addresses N - 1, N and -1. -/
theorem witness_ResolveFollowsModeDigit : ∃ p q r : Param, p.mode = 0 ∧ q.mode = 1 ∧ r.mode ≠ 0 ∧ r.mode ≠ 1 :=
  ⟨⟨0, 6⟩, ⟨1, 7⟩, ⟨2, -1⟩, by decide⟩

theorem witness_MemoryStoreContract : ¬ (0 ≤ (-1 : Int) ∧ (-1 : Int) < w.mem.size) ∧
    ¬ (0 ≤ (7 : Int) ∧ (7 : Int) < w.mem.size) ∧ (0 ≤ (6 : Int) ∧ (6 : Int) < w.mem.size) ∧
    (0 ≤ (0 : Int) ∧ (0 : Int) < w.mem.size) ∧ ¬ (0 ≤ (7 : Word).toInt ∧ (7 : Word).toInt < w.mem.size) ∧
    w.waiting = false := by decide

/-- Digit 2 on a read parameter, and digit 1 on a write parameter. -/
theorem witness_IllegalModeTakesInvalidAddressingMode :
    ¬ LegalModes (.out ⟨2, 0⟩) ∧ ¬ LegalModes (.inp ⟨1, 0⟩) :=
  ⟨fun h => absurd (h.1 ⟨2, 0⟩ (by decide)) (by unfold ReadLegal; decide),
    fun h => absurd (h.2 ⟨1, 0⟩ rfl) (by decide)⟩

/-- A jump whose second operand is outside, by one. -/
theorem witness_OperandOutsideTakesOutOfBounds :
    LegalModes (.jt ⟨1, 0⟩ ⟨0, 7⟩) ∧ ∃ p ∈ readParams (.jt ⟨1, 0⟩ ⟨0, 7⟩), BadAddress w.mem p :=
  ⟨⟨by unfold ReadLegal; decide, by decide⟩, ⟨0, 7⟩, by decide, rfl, by decide⟩

theorem witness_DestinationOutsideTakesOutOfBounds : Operand w.mem ⟨0, 4⟩ 30 ∧ Operand w.mem ⟨1, 7⟩ 7 ∧
    (⟨0, 7⟩ : Param).mode = 0 ∧ ¬ (0 ≤ (7 : Word).toInt ∧ (7 : Word).toInt < w.mem.size) :=
  ⟨wit_operands.1, wit_operands.2.1, by decide, by decide⟩

/-- For ADD, MULT, LT, EQ and the comparison statement: operands read, destination the last cell. -/
theorem wit_storing : ∃ (a b dst : Param) (x y : Word) (s : State), Operand s.mem a x ∧ Operand s.mem b y ∧
    dst.mode = 0 ∧ 0 ≤ dst.raw.toInt ∧ dst.raw.toInt < s.mem.size :=
  ⟨⟨0, 4⟩, ⟨1, 7⟩, ⟨0, 6⟩, 30, 7, w, wit_operands.1, wit_operands.2.1, by decide⟩

/-- The compares' three cases at the ends of the range: less, equal, greater. -/
theorem wit_compare : Operand w.mem ⟨1, wrap (-2 ^ 63)⟩ (wrap (-2 ^ 63)) ∧ Operand w.mem ⟨1, wrap (2 ^ 63 - 1)⟩ (wrap (2 ^ 63 - 1)) ∧
    (wrap (-2 ^ 63)).toInt < (wrap (2 ^ 63 - 1)).toInt ∧ ¬ (wrap (2 ^ 63 - 1)).toInt < (wrap (-2 ^ 63)).toInt ∧
    ¬ (wrap (-2 ^ 63)).toInt = (wrap (2 ^ 63 - 1)).toInt :=
  ⟨.inr ⟨rfl, rfl⟩, .inr ⟨rfl, rfl⟩, by decide⟩

theorem witness_AddStoresTheSum : ∃ (a b dst : Param) (x y : Word) (s : State), Operand s.mem a x ∧ Operand s.mem b y ∧
    dst.mode = 0 ∧ 0 ≤ dst.raw.toInt ∧ dst.raw.toInt < s.mem.size := wit_storing

theorem witness_MultStoresTheProduct : ∃ (a b dst : Param) (x y : Word) (s : State), Operand s.mem a x ∧
    Operand s.mem b y ∧ dst.mode = 0 ∧ 0 ≤ dst.raw.toInt ∧ dst.raw.toInt < s.mem.size := wit_storing

theorem witness_LtStoresSignedLess : ∃ (a b dst : Param) (x y : Word) (s : State), Operand s.mem a x ∧
    Operand s.mem b y ∧ dst.mode = 0 ∧ 0 ≤ dst.raw.toInt ∧ dst.raw.toInt < s.mem.size := wit_storing

theorem witness_EqStoresEquality : ∃ (a b dst : Param) (x y : Word) (s : State), Operand s.mem a x ∧
    Operand s.mem b y ∧ dst.mode = 0 ∧ 0 ≤ dst.raw.toInt ∧ dst.raw.toInt < s.mem.size := wit_storing

theorem witness_ExactlyOneCompareStoresOne : ∃ (a b dst : Param) (x y : Word) (s : State), Operand s.mem a x ∧
    Operand s.mem b y ∧ dst.mode = 0 ∧ 0 ≤ dst.raw.toInt ∧ dst.raw.toInt < s.mem.size := wit_storing

/-- The greatest sum in range, and the least product in range. -/
theorem witness_ArithmeticIsExactInRange : ∃ (x y z : Word) (t u : State),
    Operand w.mem ⟨1, x⟩ x ∧ Operand w.mem ⟨1, y⟩ y ∧ Operand w.mem ⟨1, z⟩ z ∧
    exec (.add ⟨1, x⟩ ⟨1, y⟩ ⟨0, 6⟩) w = .next t ∧ x.toInt + y.toInt = 2 ^ 63 - 1 ∧
    exec (.mult ⟨1, z⟩ ⟨1, y⟩ ⟨0, 6⟩) w = .next u ∧ z.toInt * y.toInt = -2 ^ 63 ∧
    0 ≤ (6 : Word).toInt ∧ (6 : Word).toInt < w.mem.size := by
  have h1 : gives (exec (.add ⟨1, 9223372036854775806⟩ ⟨1, 1⟩ ⟨0, 6⟩) w) (fun _ => true) = true := by decide
  have h2 : gives (exec (.mult ⟨1, wrap (-9223372036854775808)⟩ ⟨1, 1⟩ ⟨0, 6⟩) w) (fun _ => true) = true := by decide
  obtain ⟨t, ht, -⟩ := gives_next h1
  obtain ⟨u, hu, -⟩ := gives_next h2
  exact ⟨9223372036854775806, 1, wrap (-9223372036854775808), t, u, .inr ⟨rfl, rfl⟩, .inr ⟨rfl, rfl⟩, .inr ⟨rfl, rfl⟩,
    ht, by decide, hu, by decide, by decide, by decide⟩

/-- A malformed item and an out-of-range numeral, then the greatest value. -/
theorem wit_items : (machine [3, 2, 0] [.malformed, .integer (2 ^ 63), .integer (2 ^ 63 - 1)]).input.pending =
      [.malformed, .integer (2 ^ 63)] ++ .integer (2 ^ 63 - 1) :: [] ∧
    (∀ x ∈ [InputItem.malformed, .integer (2 ^ 63)], Malformed x) ∧ -2 ^ 63 ≤ (2 ^ 63 - 1 : Int) ∧
    (2 ^ 63 - 1 : Int) < 2 ^ 63 := by
  refine ⟨rfl, fun x hx => ?_, by decide, by decide⟩
  rcases List.mem_cons.mp hx with rfl | hx
  · exact .inl rfl
  · exact .inr ⟨2 ^ 63, List.mem_singleton.mp hx, by decide⟩

theorem witness_InStoresTheNextValue : ∃ (dst : Param) (bad rest : List InputItem) (z : Int) (s : State),
    dst.mode = 0 ∧ s.input.pending = bad ++ .integer z :: rest ∧ (∀ x ∈ bad, Malformed x) ∧ -2 ^ 63 ≤ z ∧
    z < 2 ^ 63 ∧ 0 ≤ dst.raw.toInt ∧ dst.raw.toInt < s.mem.size :=
  ⟨⟨0, 2⟩, _, _, _, _, rfl, wit_items.1, wit_items.2.1, wit_items.2.2.1, wit_items.2.2.2, by decide, by decide⟩

theorem witness_InOutsideLosesTheItem : ∃ (dst : Param) (bad rest : List InputItem) (z : Int) (s : State),
    dst.mode = 0 ∧ s.input.pending = bad ++ .integer z :: rest ∧ (∀ x ∈ bad, Malformed x) ∧ -2 ^ 63 ≤ z ∧
    z < 2 ^ 63 ∧ ¬ (0 ≤ dst.raw.toInt ∧ dst.raw.toInt < s.mem.size) :=
  ⟨⟨0, 3⟩, _, _, _, _, rfl, wit_items.1, wit_items.2.1, wit_items.2.2.1, wit_items.2.2.2, by decide⟩

theorem witness_InAtEndTakesInputExhausted : ∃ (dst : Param) (s : State), dst.mode = 0 ∧
    (∀ x ∈ s.input.pending, Malformed x) ∧ s.input.ended = true :=
  ⟨⟨0, 0⟩, machine [3, 0, 99] [.malformed], rfl, fun _ hx => .inl (List.mem_singleton.mp hx), rfl⟩

theorem witness_InWithoutItemWaits : ∃ (dst : Param) (s : State), dst.mode = 0 ∧
    (∀ x ∈ s.input.pending, Malformed x) ∧ s.input.ended = false :=
  ⟨⟨0, 0⟩, State.ofCells [3, 0, 99] [.malformed] false, rfl, fun _ hx => .inl (List.mem_singleton.mp hx), rfl⟩

theorem witness_SuppliedItemEndsTheWait : ∃ (s : State) (dst : Param) (z : Int), s.status = .running ∧
    s.fetch = .ok (.inp dst) ∧ dst.mode = 0 ∧ (∀ x ∈ s.input.pending, Malformed x) ∧ s.input.ended = false ∧
    -2 ^ 63 ≤ z ∧ z < 2 ^ 63 ∧ 0 ≤ dst.raw.toInt ∧ dst.raw.toInt < s.mem.size :=
  ⟨State.ofCells [3, 2, 99] [.malformed] false, ⟨0, 2⟩, -2 ^ 63, rfl, by decide, rfl,
    fun _ hx => .inl (List.mem_singleton.mp hx), rfl, by decide⟩

/-- The second clause's hypotheses: nothing is asked of the destination's address, here outside memory. -/
theorem witness_SuppliedItemEndsTheWait_ended : ∃ (s : State) (dst : Param), s.status = .running ∧
    s.fetch = .ok (.inp dst) ∧ dst.mode = 0 ∧ (∀ x ∈ s.input.pending, Malformed x) ∧ s.input.ended = false :=
  ⟨State.ofCells [3, 7, 99] [.malformed] false, ⟨0, 7⟩, rfl, by decide, rfl,
    fun _ hx => .inl (List.mem_singleton.mp hx), rfl⟩

theorem witness_NoCommandDuringTheWait : ∃ s : State, Held s :=
  ⟨{ State.ofCells [3, 0, 99] [] false with waiting := true }, rfl, rfl⟩

theorem witness_MalformedItemsAreInvisible : ∃ (dst : Param) (bad : List InputItem), dst.mode = 0 ∧ bad ≠ [] ∧
    ∀ x ∈ bad, Malformed x := ⟨⟨0, 0⟩, _, rfl, by decide, wit_items.2.1⟩

theorem witness_OutAppendsTheOperand : ∃ (a : Param) (x : Word) (s : State), Operand s.mem a x :=
  ⟨⟨0, 5⟩, -40, w, wit_operands.2.2⟩

/-- A non-zero and a zero condition. -/
theorem wit_jump : Operand w.mem ⟨0, 5⟩ (-40) ∧ Operand w.mem ⟨1, 0⟩ 0 ∧ Operand w.mem ⟨1, -1⟩ (-1) :=
  ⟨wit_operands.2.2, .inr ⟨rfl, rfl⟩, .inr ⟨rfl, rfl⟩⟩

theorem witness_JtJumpsOnNonZero : ∃ (a b : Param) (x y : Word) (s : State), Operand s.mem a x ∧ Operand s.mem b y :=
  ⟨⟨0, 5⟩, ⟨1, -1⟩, -40, -1, w, wit_jump.1, wit_jump.2.2⟩

theorem witness_JfJumpsOnZero : ∃ (a b : Param) (x y : Word) (s : State), Operand s.mem a x ∧ Operand s.mem b y :=
  ⟨⟨1, 0⟩, ⟨1, -1⟩, 0, -1, w, wit_jump.2.1, wit_jump.2.2⟩

/-- Each of the four completes, and MULT also faults. -/
theorem witness_StoringInstrFrame : ∃ t1 t2 t3 t4 t5 : State,
    exec (.add ⟨0, 4⟩ ⟨1, 7⟩ ⟨0, 6⟩) w = .next t1 ∧ exec (.mult ⟨0, 4⟩ ⟨1, 7⟩ ⟨0, 6⟩) w = .next t2 ∧
    exec (.lt ⟨0, 4⟩ ⟨1, 7⟩ ⟨0, 6⟩) w = .next t3 ∧ exec (.eq ⟨0, 4⟩ ⟨1, 7⟩ ⟨0, 6⟩) w = .next t4 ∧
    exec (.mult ⟨0, 4⟩ ⟨1, 7⟩ ⟨0, 7⟩) w = .next t5 ∧ t1.status = .running ∧ t5.status = .faulted .outOfBounds := by
  have h (i : Instr) (p : State → Bool) (hg : gives (exec i w) p = true) := gives_next hg
  obtain ⟨t1, h1, p1⟩ := h (.add ⟨0, 4⟩ ⟨1, 7⟩ ⟨0, 6⟩) (fun t => t.status = .running) (by decide)
  obtain ⟨t2, h2, -⟩ := h (.mult ⟨0, 4⟩ ⟨1, 7⟩ ⟨0, 6⟩) (fun _ => true) (by decide)
  obtain ⟨t3, h3, -⟩ := h (.lt ⟨0, 4⟩ ⟨1, 7⟩ ⟨0, 6⟩) (fun _ => true) (by decide)
  obtain ⟨t4, h4, -⟩ := h (.eq ⟨0, 4⟩ ⟨1, 7⟩ ⟨0, 6⟩) (fun _ => true) (by decide)
  obtain ⟨t5, h5, p5⟩ := h (.mult ⟨0, 4⟩ ⟨1, 7⟩ ⟨0, 7⟩) (fun t => t.status = .faulted .outOfBounds) (by decide)
  exact ⟨t1, t2, t3, t4, t5, h1, h2, h3, h4, h5, by simpa using p1, by simpa using p5⟩

theorem witness_InFrame : ∃ (dst : Param) (s t : State), exec (.inp dst) s = .next t ∧ t.pc = s.pc + 2 := by
  obtain ⟨t, h, p⟩ := gives_next (o := exec (.inp ⟨0, 2⟩) (machine [3, 2, 0] [.integer 1]))
    (p := fun t => t.pc = 2) (by decide)
  exact ⟨_, _, t, h, by simpa [machine, State.ofCells] using p⟩

theorem witness_OutAndJumpFrame : ∃ t1 t2 t3 : State, exec (.out ⟨0, 4⟩) w = .next t1 ∧
    exec (.jt ⟨0, 4⟩ ⟨1, 7⟩) w = .next t2 ∧ exec (.jf ⟨0, 4⟩ ⟨1, 7⟩) w = .next t3 := by
  have h (i : Instr) (hg : gives (exec i w) (fun _ => true) = true) := gives_next hg
  obtain ⟨t1, h1, -⟩ := h (.out ⟨0, 4⟩) (by decide)
  obtain ⟨t2, h2, -⟩ := h (.jt ⟨0, 4⟩ ⟨1, 7⟩) (by decide)
  obtain ⟨t3, h3, -⟩ := h (.jf ⟨0, 4⟩ ⟨1, 7⟩) (by decide)
  exact ⟨t1, t2, t3, h1, h2, h3⟩

theorem witness_FaultLeavesMemoryAndPc : ∃ s t : State, step s = .next t ∧ t.status = .faulted .outOfBounds := by
  obtain ⟨t, h, p⟩ := gives_next (o := step (machine [1, 0, 0, 5, 99])) (p := fun t => t.status = .faulted .outOfBounds)
    (by decide)
  exact ⟨_, t, h, by simpa using p⟩

/-- A step from each machine faults with the reason. -/
theorem wit_fault {s : State} {r : FaultReason} (h : gives (step s) (fun t => t.status = .faulted r) = true) :
    ∃ t, step s = .next t ∧ t.status = .faulted r := by
  obtain ⟨t, h, p⟩ := gives_next h
  exact ⟨t, h, by simpa using p⟩

/-- OutOfBounds by each of R191's causes (a) to (d): pc = N, an ADD cut short by one cell, an operand and a destination
at N. -/
theorem witness_FaultReasonOrigins_outOfBounds :
    ∀ s ∈ [{ machine [99] with pc := 1 }, machine [1, 0, 0], machine [1, 5, 0, 0, 99], machine [1, 0, 0, 5, 99]],
      ∃ t, step s = .next t ∧ t.status = .faulted .outOfBounds := by
  intro s hs
  simp only [List.mem_cons, List.not_mem_nil, or_false] at hs
  rcases hs with rfl | rfl | rfl | rfl <;> exact wit_fault (by decide)

/-- InvalidOpcode by a word below zero and by an unknown one. -/
theorem witness_FaultReasonOrigins_invalidOpcode :
    ∀ s ∈ [machine [-1], machine [0]], ∃ t, step s = .next t ∧ t.status = .faulted .invalidOpcode := by
  intro s hs
  simp only [List.mem_cons, List.not_mem_nil, or_false] at hs
  rcases hs with rfl | rfl <;> exact wit_fault (by decide)

/-- InvalidAddressingMode by digit 2 on a read parameter and by digit 1 on a write parameter. -/
theorem witness_FaultReasonOrigins_invalidAddressingMode :
    ∀ s ∈ [machine [204, 0], machine [103, 0]], ∃ t, step s = .next t ∧ t.status = .faulted .invalidAddressingMode := by
  intro s hs
  simp only [List.mem_cons, List.not_mem_nil, or_false] at hs
  rcases hs with rfl | rfl <;> exact wit_fault (by decide)

theorem witness_FaultReasonOrigins_inputExhausted : ∃ s t : State, step s = .next t ∧ t.status = .faulted .inputExhausted :=
  ⟨machine [3, 0, 99] [.malformed], wit_fault (by decide)⟩

theorem witness_HaltedExactlyByHalt : ∃ s t : State, s.status = .running ∧ step s = .next t ∧ t.status = .halted := by
  obtain ⟨t, h, p⟩ := gives_next (o := step (machine [99])) (p := fun t => t.status = .halted) (by decide)
  exact ⟨_, t, rfl, h, by simpa using p⟩

/-- A terminal state, a step that halts and a step that faults. -/
theorem witness_StatusIsImmutableOnceTerminal : ∃ s s1 t1 s2 t2 : State, s.status ≠ .running ∧
    step s1 = .next t1 ∧ t1.status = .halted ∧ step s2 = .next t2 ∧ t2.status = .faulted .invalidOpcode := by
  obtain ⟨t1, h1, p1⟩ := gives_next (o := step (machine [99])) (p := fun t => t.status = .halted) (by decide)
  obtain ⟨t2, h2, p2⟩ := wit_fault (s := machine [0]) (r := .invalidOpcode) (by decide)
  exact ⟨{ w with status := .halted }, _, t1, _, t2, by decide, h1, by simpa using p1, h2, p2⟩

theorem witness_OnlyWritersChangeMemory : ∃ (s t : State) (addr : Int), step s = .next t ∧
    t.mem.get? addr ≠ s.mem.get? addr := by
  obtain ⟨t, h, p⟩ := gives_next (o := step (machine [1, 0, 0, 0, 99])) (p := fun t => t.mem.get? 0 = some 2) (by decide)
  have p' : t.mem.get? 0 = some 2 := by simpa using p
  exact ⟨_, t, 0, h, by rw [p']; decide⟩

/-- Two steps from a machine that is not held, an OUT that appends its operand, then a HALT that appends nothing; a held
machine; and a command that is neither Step nor Run. -/
theorem witness_OutputGrowsOnlyByOut : ¬ Held (machine [104, -7, 99]) ∧ Appends (machine [104, -7, 99]) [-7] ∧
    Appends (afterSteps (machine [104, -7, 99]) 1) [] ∧ (∃ s : State, Held s) ∧ HostMove.endInput ≠ .step ∧
    HostMove.endInput ≠ .resume ∧ ∀ fuel, HostMove.endInput ≠ .run fuel := by
  refine ⟨by simp [Held, machine, State.ofCells], .inl ⟨⟨1, -7⟩, -7, rfl, by decide, .inr ⟨rfl, rfl⟩, rfl⟩,
    .inr ⟨?_, rfl⟩, witness_NoCommandDuringTheWait, nofun, nofun, nofun⟩
  rintro ⟨a, v, -, h, -⟩
  have hf : (afterSteps (machine [104, -7, 99]) 1).fetch = .ok .halt := by decide
  rw [hf] at h
  cases h

theorem witness_OutputLogIsNeverRead : ∃ s t : State, step s = .next t ∧ t.output ≠ s.output := by
  obtain ⟨t, h, p⟩ := gives_next (o := step (machine [104, -7, 99])) (p := fun t => t.output = [-7]) (by decide)
  have p' : t.output = [-7] := by simpa using p
  exact ⟨_, t, h, by rw [p']; decide⟩

theorem witness_OnlyInSeesTheInput : ∃ s t : State, (∀ dst, s.fetch ≠ .ok (.inp dst)) ∧ step s = .next t := by
  obtain ⟨t, h, -⟩ := gives_next (o := step (machine [104, -7, 99])) (p := fun _ => true) (by decide)
  have hf : (machine [104, -7, 99]).fetch = .ok (.out ⟨1, -7⟩) := by decide
  exact ⟨_, t, fun dst => by rw [hf]; simp, h⟩

/-- The last instruction of memory: pc becomes N. -/
theorem witness_PcMovesPastTheInstr : ∃ (s t : State) (i : Instr), s.mem.wf = true ∧ s.fetch = .ok i ∧
    step s = .next t ∧ t.status = .running ∧ t.waiting = false ∧ ∀ a b, i ≠ .jt a b ∧ i ≠ .jf a b := by
  obtain ⟨t, h, p⟩ := gives_next (o := step (machine [1101, 1, 1, 0]))
    (p := fun t => t.status = .running ∧ t.waiting = false) (by decide)
  have p' : t.status = .running ∧ t.waiting = false := by simpa using p
  exact ⟨_, t, .add ⟨1, 1⟩ ⟨1, 1⟩ ⟨0, 0⟩, by decide, by decide, h, p'.1, p'.2, fun _ _ => ⟨nofun, nofun⟩⟩

/-- A Running machine, and one that is held in IN. -/
theorem witness_StepKeepsTheInvariant : ∃ s t : State, s.Inv ∧ s.waiting = true ∧ step s = .next t := by
  obtain ⟨t, h, -⟩ := gives_next (o := step { State.ofCells [3, 0, 99] [.integer 5] false with waiting := true })
    (p := fun _ => true) (by decide)
  exact ⟨_, t, ⟨by decide, fun _ => ⟨rfl, ⟨0, 0⟩, by decide, rfl⟩⟩, rfl, h⟩

theorem witness_HostMovesKeepTheInvariant : ∃ s : State, s.Inv ∧ s.waiting = false :=
  ⟨w, ⟨by decide, nofun⟩, rfl⟩

theorem witness_ConstructedMachineState : ∃ (text : List Char) (items : List InputItem) (ended : Bool) (s : State),
    State.construct text items ended = some s :=
  ⟨['1', ',', '0', ',', '0', ',', '0', ',', '9', '9'], [.integer 4], true, machine [1, 0, 0, 0, 99] [.integer 4],
    by decide⟩

/-- Both sides of the first clause are met by a text, leading zeros and a sign in it, and fail of one out of range. -/
theorem witness_ConstructedMachineState_accepted :
    IsProgramText ['0', '7', ',', '-', '5'] [7, -5] ∧ FitsMachine [7, -5] ∧ ¬ FitsMachine [2 ^ 63] := by
  refine ⟨⟨[['0', '7'], ['-', '5']], by decide, ?_, by decide⟩, by unfold FitsMachine; decide,
    fun h => absurd (h.1 _ (List.mem_singleton.mpr rfl)) (by decide)⟩
  exact .cons ⟨['0', '7'], by decide, by simp, .inl ⟨rfl, by decide⟩⟩
    (.cons ⟨['5'], by decide, by simp, .inr ⟨rfl, by decide⟩⟩ .nil)

/-- An accepted text and a refused one. -/
theorem witness_ParserAcceptsExactlyTheGrammar :
    parseText ['0', '7', ',', '-', '5'] = some [7, -5] ∧ parseText ['1', ','] = none := by decide

theorem witness_SupplyAndEndChangeOnlyTheSource : ∃ s t : State, s.input.ended = false ∧ t.input.ended = true :=
  ⟨State.reset, w, rfl, rfl⟩

theorem witness_ProgramTextReadsBack : ([-12, 0, 305] : List Int) ≠ [] := by decide

/-- Addresses N - 1 and N. -/
theorem witness_HostAccessIsBoundsChecked : w.waiting = false ∧ (0 ≤ (6 : Word).toInt ∧ (6 : Word).toInt < w.mem.size) ∧
    ¬ (0 ≤ (7 : Word).toInt ∧ (7 : Word).toInt < w.mem.size) := by decide

/-- A step not in progress whose next state is held, and a held one that completes. -/
theorem witness_RunIsRepeatedStep_step : ∃ s t s' t' : State, step s = .next t ∧ ¬ Held s ∧ t.waiting = true ∧
    step s' = .next t' ∧ Held s' ∧ t'.waiting = false := by
  obtain ⟨t, h, p⟩ := gives_next (o := step (State.ofCells [3, 0, 99] [] false)) (p := fun t => t.waiting) (by decide)
  obtain ⟨t', h', p'⟩ := gives_next (o := step { State.ofCells [3, 0, 99] [.integer 1] false with waiting := true })
    (p := fun t => !t.waiting) (by decide)
  exact ⟨_, t, _, t', h, by simp [Held, State.ofCells], p, h', ⟨rfl, rfl⟩, by simpa using p'⟩

/-- An OUT, then an IN that is held: a run stops there after two steps. -/
theorem witness_RunIsRepeatedStep_held : ∃ (s : State) (fuel k : Nat), k ≤ fuel ∧ ¬ Held s ∧
    (∀ j, j < k → ¬ Held (afterSteps s j)) ∧ Held (afterSteps s k) :=
  ⟨State.ofCells [104, 7, 3, 0] [] false, 2, 2, by unfold Held; decide⟩

/-- The second step halts, and the bound is exactly two. -/
theorem witness_RunIsRepeatedStep_ends : ∃ (s : State) (fuel k : Nat), k ≤ fuel ∧ s.status = .running ∧
    (∀ j, j < k → (afterSteps s j).status = .running) ∧ (afterSteps s k).status ≠ .running :=
  ⟨machine [104, -7, 99], 2, 2, by decide⟩

/-- A jump to itself. -/
theorem witness_RunIsRepeatedStep_bound : ∃ (s : State) (fuel : Nat), ∀ j, j ≤ fuel →
    (afterSteps s j).status = .running ∧ ¬ Held (afterSteps s j) :=
  ⟨machine [1105, 1, 0], 2, by unfold Held; decide⟩

theorem witness_RunIsRepeatedStep : ∃ (s t : State) (fuel : Nat) (st : Status), s.status = .running ∧
    hostRun fuel s = (t, .status st) :=
  ⟨machine [99], { machine [99] with status := .halted }, 1, .halted, by decide⟩

theorem witness_RunIsRepeatedStep_terminal : ∃ s : State, s.status ≠ .running :=
  ⟨{ w with status := .halted }, by decide⟩

end Sys2Proof.Tests
end

section
/-! SUPPORT. The effect of an instruction on the state, said once for all nine, and from it what a step can do to memory,
`pc`, status and the wait. -/

namespace Sys2Proof.Proofs

open Sys2Proof.Machine Sys2Proof.Claims

/-! ## The effect of an instruction -/

/-- JT or JF. -/
def IsJump (i : Instr) : Prop := ∃ a b, i = .jt a b ∨ i = .jf a b

/-- `Effect s i t`: executing `i` in `s` can end in `t`. Halting, waiting and faulting keep memory and `pc`; the other
ways are the completions of 40_execution_engine.md R118. `src` is the input source left. -/
inductive Effect (s : State) : Instr → State → Prop where
  | halts : Effect s .halt s.stop
  | waits {dst : Param} (src : InputSource) (legal : dst.mode = 0) : Effect s (.inp dst) (s.setInput src).hold
  | faults {i : Instr} (src : InputSource) (r : FaultReason) (hi : i ≠ .halt) : Effect s i ((s.setInput src).raise r)
  | stores {i : Instr} {dst : Param} {v : Word} {m : Memory} (src : InputSource) (hd : destination i = some dst)
      (hm : s.mem.set? dst.raw.toInt v = some m) :
      Effect s i (((s.setInput src).setMem m).advance (1 + i.params.length))
  | outputs {a : Param} (v : Word) : Effect s (.out a) ((s.portWrite v).advance 2)
  | jumps {i : Instr} (target : Word) (hj : IsJump i) : Effect s i (s.jumpTo target)
  | fallsThrough {i : Instr} (hj : IsJump i) : Effect s i (s.advance 3)

/-- A fault of an instruction that has not moved the input. -/
theorem Effect.faults_unmoved {i : Instr} {s : State} (r : FaultReason) (hi : i ≠ .halt) : Effect s i (s.raise r) :=
  .faults s.input r hi

/-- What completing or faulting leaves of the state, for the four instructions of format F3. -/
theorem computeAndStore_frame {f : Word → Word → Word} {a b dst : Param} {s t : State}
    (h : computeAndStore f a b dst s = .next t) :
    (∃ r, t = s.raise r) ∨ ∃ v m, s.mem.set? dst.raw.toInt v = some m ∧ t = (s.setMem m).advance 4 := by
  rcases computeAndStore_cases h with ⟨-, ht⟩ | ⟨-, ⟨-, ht⟩ | ⟨-, ht⟩ | ⟨va, vb, m, -, -, hm, ht⟩⟩
  · exact .inl ⟨_, ht⟩
  · exact .inl ⟨_, ht⟩
  · exact .inl ⟨_, ht⟩
  · exact .inr ⟨_, m, hm, ht⟩

/-- The four instructions of format F3 store at their destination, or fault. -/
theorem effect_of_computeAndStore {i : Instr} {f : Word → Word → Word} {a b dst : Param} {s t : State}
    (hd : destination i = some dst) (hn : i.params.length = 3) (h : computeAndStore f a b dst s = .next t) :
    Effect s i t := by
  rcases computeAndStore_frame h with ⟨r, rfl⟩ | ⟨v, m, hm, rfl⟩
  · exact .faults_unmoved r (by rintro rfl; cases hd)
  · have hstore := Effect.stores s.input hd hm
    rwa [hn] at hstore

theorem effect_of_jumpWhen {i : Instr} {test : Word → Bool} {a b : Param} {s t : State} (hj : IsJump i)
    (h : jumpWhen test a b s = .next t) : Effect s i t := by
  have hi : i ≠ .halt := by rintro rfl; obtain ⟨_, _, h | h⟩ := hj <;> cases h
  rcases jumpWhen_cases h with ⟨-, rfl⟩ | ⟨-, ⟨-, rfl⟩ | ⟨va, vb, -, -, rfl⟩⟩
  · exact .faults_unmoved _ hi
  · exact .faults_unmoved _ hi
  · split
    · exact .jumps vb hj
    · exact .fallsThrough hj

theorem effect_of_execInp {dst : Param} {s t : State} (h : execInp dst s = .next t) : Effect s (.inp dst) t := by
  rcases execInp_cases h with ⟨-, rfl⟩ | ⟨h0, src, -, rfl⟩ | ⟨-, src, -, rfl⟩ | ⟨-, v, src, -, -, rfl⟩ |
    ⟨-, v, src, m, -, hm, rfl⟩
  · exact .faults_unmoved _ nofun
  · exact .waits src h0
  · exact .faults src _ nofun
  · exact .faults src _ nofun
  · exact Effect.stores src rfl hm

theorem effect_of_execOut {a : Param} {s t : State} (h : execOut a s = .next t) : Effect s (.out a) t := by
  rcases execOut_cases h with ⟨-, rfl⟩ | ⟨-, ⟨-, rfl⟩ | ⟨v, -, rfl⟩⟩
  · exact .faults_unmoved _ nofun
  · exact .faults_unmoved _ nofun
  · exact .outputs v

theorem effect_of_exec {i : Instr} {s t : State} (h : exec i s = .next t) : Effect s i t := by
  cases i with
  | add a b dst => exact effect_of_computeAndStore (f := addValue) rfl rfl h
  | mult a b dst => exact effect_of_computeAndStore (f := multValue) rfl rfl h
  | inp dst => exact effect_of_execInp h
  | out a => exact effect_of_execOut h
  | jt a b => exact effect_of_jumpWhen (test := nonZero) ⟨a, b, .inl rfl⟩ h
  | jf a b => exact effect_of_jumpWhen (test := fun v => !nonZero v) ⟨a, b, .inr rfl⟩ h
  | lt a b dst => exact effect_of_computeAndStore (f := fun x y => truthWord (signedLess x y)) rfl rfl h
  | eq a b dst => exact effect_of_computeAndStore (f := fun x y => truthWord (x == y)) rfl rfl h
  | halt => cases h; exact .halts

/-! ## What a step does to memory, the wait and the status -/

/-- Memory after an instruction is memory before it, or it with one write at the destination (10_state.md R25). -/
theorem Effect.mem {i : Instr} {s t : State} (h : Effect s i t) :
    t.mem = s.mem ∨ ∃ dst v, destination i = some dst ∧ s.mem.set? dst.raw.toInt v = some t.mem := by
  cases h with
  | halts => exact .inl rfl
  | waits => exact .inl rfl
  | faults => exact .inl rfl
  | stores src hd hm => exact .inr ⟨_, _, hd, hm⟩
  | outputs => exact .inl rfl
  | jumps => exact .inl rfl
  | fallsThrough => exact .inl rfl

/-- An instruction leaves a step in progress only by waiting, which is IN with a legal mode (60_exceptions.md R207). -/
theorem Effect.waiting {i : Instr} {s t : State} (h : Effect s i t) (hw : t.waiting = true) :
    ∃ dst : Param, i = .inp dst ∧ dst.mode = 0 ∧ t.mem = s.mem ∧ t.pc = s.pc ∧ t.status = s.status := by
  cases h with
  | halts => cases hw
  | waits src h0 => exact ⟨_, rfl, h0, rfl, rfl, rfl⟩
  | faults => cases hw
  | stores => cases hw
  | outputs => cases hw
  | jumps => cases hw
  | fallsThrough => cases hw

/-- An instruction changes the status only by being HALT, or by a fault that keeps `pc` and memory. -/
theorem Effect.status {i : Instr} {s t : State} (h : Effect s i t) :
    t.status = s.status ∨ (i = .halt ∧ t.status = .halted) ∨
      ∃ r, i ≠ .halt ∧ t.status = .faulted r ∧ t.pc = s.pc ∧ t.mem = s.mem := by
  cases h with
  | halts => exact .inr (.inl ⟨rfl, rfl⟩)
  | waits => exact .inl rfl
  | faults src r hi => exact .inr (.inr ⟨r, hi, rfl, rfl, rfl⟩)
  | stores => exact .inl rfl
  | outputs => exact .inl rfl
  | jumps => exact .inl rfl
  | fallsThrough => exact .inl rfl

/-- A step runs the fetched instruction, to one of its effects, or takes the fetch's fault. -/
theorem step_effect {s t : State} (h : step s = .next t) :
    (∃ i, s.fetch = .ok i ∧ Effect s i t) ∨ ∃ r, s.fetch = .error r ∧ t = s.raise r := by
  obtain ⟨-, ⟨i, hf, he⟩ | hr⟩ := step_cases h
  · exact .inl ⟨i, hf, effect_of_exec he⟩
  · exact .inr hr

theorem step_status_running {s t : State} (h : step s = .next t) : s.status = .running := (step_cases h).1

/-- Memory after a step is memory before it, or it with one write at the fetched instruction's destination. -/
theorem step_mem {s t : State} (h : step s = .next t) :
    t.mem = s.mem ∨ ∃ i dst v, s.fetch = .ok i ∧ destination i = some dst ∧
      s.mem.set? dst.raw.toInt v = some t.mem := by
  rcases step_effect h with ⟨i, hf, he⟩ | ⟨r, -, rfl⟩
  · exact he.mem.imp id fun ⟨dst, v, hd, hm⟩ => ⟨i, dst, v, hf, hd, hm⟩
  · exact .inl rfl

theorem step_wf {s t : State} (h : step s = .next t) (hw : s.mem.wf = true) : t.mem.wf = true := by
  rcases step_mem h with hm | ⟨i, dst, v, -, -, hset⟩
  · rwa [hm]
  · exact Memory.set?_wf hset hw

theorem step_size {s t : State} (h : step s = .next t) : t.mem.size = s.mem.size := by
  rcases step_mem h with hm | ⟨i, dst, v, -, -, hset⟩
  · rw [hm]
  · exact Memory.set?_size hset

/-- A step that is held is held at an IN with a legal mode, which the next step fetches again. -/
theorem step_waiting {s t : State} (h : step s = .next t) (hw : t.waiting = true) :
    t.status = .running ∧ ∃ dst : Param, t.fetch = .ok (.inp dst) ∧ dst.mode = 0 := by
  rcases step_effect h with ⟨i, hf, he⟩ | ⟨r, -, rfl⟩
  · obtain ⟨dst, rfl, h0, hm, hp, hs⟩ := he.waiting hw
    exact ⟨hs.trans (step_status_running h), dst, (fetch_congr hm hp).trans hf, h0⟩
  · cases hw

/-! ## The statements about steps -/

/-- Settles O49: every write keeps memory canonical, and a step is left in progress only by IN's wait. -/
theorem stepKeepsTheInvariant : Obligations.StepKeepsTheInvariant := by
  intro s t hinv h
  exact ⟨step_wf h hinv.1, step_waiting h⟩

/-- Settles O43: a step's one write is at the fetched instruction's destination. -/
theorem onlyWritersChangeMemory : Obligations.OnlyWritersChangeMemory := by
  intro s t addr h hne
  rcases step_mem h with hm | ⟨i, dst, v, hf, hd, hset⟩
  · exact absurd (by rw [hm]) hne
  · exact ⟨i, dst, hf, hd, not_imp_comm.mp (Memory.get?_set?_other hset) hne⟩

/-- ADD, MULT, LT and EQ are the four instructions that compute and store. -/
theorem exec_storing {i : Instr} {a b dst : Param} (s : State)
    (hi : i ∈ [Instr.add a b dst, .mult a b dst, .lt a b dst, .eq a b dst]) :
    ∃ f, exec i s = computeAndStore f a b dst s := by
  simp only [List.mem_cons, List.not_mem_nil, or_false] at hi
  rcases hi with rfl | rfl | rfl | rfl
  · exact ⟨addValue, rfl⟩
  · exact ⟨multValue, rfl⟩
  · exact ⟨fun x y => truthWord (signedLess x y), rfl⟩
  · exact ⟨fun x y => truthWord (x == y), rfl⟩

/-- Settles O35: the four instructions end in a fault, or in one write at the destination and the advance. -/
theorem storingInstrFrame : Obligations.StoringInstrFrame := by
  intro i a b dst s t hi h
  obtain ⟨f, hf⟩ := exec_storing s hi
  rcases computeAndStore_frame (hf ▸ h) with ⟨r, rfl⟩ | ⟨v, m, hm, rfl⟩
  · exact ⟨rfl, rfl, rfl, rfl, fun _ _ => rfl, .inr ⟨⟨r, rfl⟩, rfl, rfl⟩⟩
  · exact ⟨rfl, rfl, rfl, Memory.set?_size hm, fun _ => Memory.get?_set?_other hm, .inl ⟨rfl, rfl⟩⟩

end Sys2Proof.Proofs
end

section
/-! SUPPORT. What every host command and the held step going on keep, packaged once as an induction, and from it what no
host command changes. -/

namespace Sys2Proof.Proofs

open Sys2Proof.Machine Sys2Proof.Claims

/-! ## What the host keeps -/

section Keeps

variable {P : State → Prop} (hstep : ∀ s t, P s → step s = .next t → P t)
include hstep

theorem stepReply_keeps {s : State} (hs : P s) : P (stepReply s).1 := by
  rcases stepReply_cases s with ⟨t, ht, hr⟩ | ⟨-, hr⟩ | ⟨-, hr⟩
  · rw [hr]; exact hstep s t hs ht
  · rwa [hr]
  · rwa [hr]

theorem runLoop_keeps (fuel : Nat) {s : State} (hs : P s) : P (runLoop fuel s).1 := by
  induction fuel generalizing s with
  | zero => exact hs
  | succ fuel ih =>
    rw [runLoop_succ]
    split
    · exact ih (stepReply_keeps hstep hs)
    · exact hs

theorem hostRun_keeps (fuel : Nat) {s : State} (hs : P s) : P (hostRun fuel s).1 := by
  unfold hostRun
  split
  · exact hs
  · split
    · exact runLoop_keeps hstep fuel hs
    · exact hs

/-- What every step keeps, what SetMemory keeps where no step is in progress, and what a new input source keeps, is kept
by every host move. -/
theorem afterMove_keeps
    (hset : ∀ s m addr v, P s → s.waiting = false → s.mem.set? addr v = some m → P (s.setMem m))
    (hinput : ∀ s src, P s → P (s.setInput src)) {s : State} (hs : P s) (mv : HostMove) : P (s.afterMove mv) := by
  cases mv with
  | step =>
    by_cases hh : s.held = true
    · simpa [State.afterMove, hostStep_of_held hh] using hs
    · simpa [State.afterMove, hostStep_of_not_held hh] using stepReply_keeps hstep hs
  | resume =>
    by_cases hh : s.held = true
    · simpa [State.afterMove, hostResume_of_held hh] using stepReply_keeps hstep hs
    · simpa [State.afterMove, hostResume_of_not_held hh] using hs
  | run fuel => exact hostRun_keeps hstep fuel hs
  | setMemory addr v =>
    simp only [State.afterMove, hostSet]
    split
    · exact hs
    · rename_i hw
      split
      · rename_i m hm; exact hset s m _ v hs (by simpa using hw) hm
      · exact hs
  | supply items =>
    simp only [State.afterMove, hostSupply]
    split
    · exact hs
    · exact hinput s _ hs
  | endInput => exact hinput s _ hs

end Keeps

/-! ## The statements about host moves -/

/-- Settles O44: no step and no SetMemory changes N. -/
theorem memorySizeIsFixed : Obligations.MemorySizeIsFixed := fun s mv =>
  afterMove_keeps (P := fun t => t.mem.size = s.mem.size) (fun _ _ hs h => (step_size h).trans hs)
    (fun _ _ _ _ hs _ hm => (Memory.set?_size hm).trans hs) (fun _ _ hs => hs) rfl mv

/-- A status other than Running is kept by every host move: no step is made in it. -/
theorem afterMove_status_of_terminal {s : State} (hs : s.status ≠ .running) (mv : HostMove) :
    (s.afterMove mv).status = s.status :=
  afterMove_keeps (P := fun t => t.status = s.status)
    (fun _ _ ht h => absurd (step_status_running h) (ht ▸ hs)) (fun _ _ _ _ ht _ _ => ht) (fun _ _ ht => ht) rfl mv

/-- A step that leaves Running made a HALT, or faulted at a fetch or an instruction that is no HALT. -/
theorem step_leaves_running {s t : State} (h : step s = .next t) (ht : t.status ≠ .running) :
    (t.status = .halted ∧ s.fetch = .ok .halt) ∨
      ∃ r, t.status = .faulted r ∧ s.fetch ≠ .ok .halt ∧ t.pc = s.pc ∧ t.mem = s.mem := by
  rcases step_effect h with ⟨i, hf, he⟩ | ⟨r, hf, rfl⟩
  · rcases he.status with hs | ⟨rfl, hs⟩ | ⟨r, hi, hs, hp, hm⟩
    · exact absurd (hs.trans (step_status_running h)) ht
    · exact .inl ⟨hs, hf⟩
    · exact .inr ⟨r, hs, by simpa [hf] using hi, hp, hm⟩
  · exact .inr ⟨r, rfl, by simp [hf], rfl, rfl⟩

/-- Settles O42: no step is made in a terminal state, and a step leaves Running by HALT or by a fault alone. -/
theorem statusIsImmutableOnceTerminal : Obligations.StatusIsImmutableOnceTerminal :=
  ⟨fun _ mv hs => afterMove_status_of_terminal hs mv, fun _ _ => step_status_running, fun _ _ => step_leaves_running⟩

/-- Settles O58: each of the two commands is one `setInput`, or no move. -/
theorem supplyAndEndChangeOnlyTheSource : Obligations.SupplyAndEndChangeOnlyTheSource := by
  intro s items
  refine ⟨fun he => ?_, fun he => ?_, rfl⟩
  · rw [hostSupply, he, if_neg Bool.false_ne_true]; rfl
  · rw [hostSupply, if_pos he]

/-! ## Reset and the codes -/

/-- Settles O51: the blank memory is well formed, and no step is in progress. -/
theorem resetMeetsTheInvariant : Obligations.ResetMeetsTheInvariant := ⟨Memory.blank_wf, nofun⟩

/-- Settles O52: the four fields of `State.reset`. -/
theorem resetValues : Obligations.ResetValues := ⟨rfl, rfl, rfl, rfl⟩

/-- A fault reason's code is at most 4 (60_exceptions.md R190). -/
theorem faultReason_code_le_four (r : FaultReason) : r.code ≤ 4 := by
  cases r <;> decide

/-- AlreadyTerminated's code is never the status register's reason (60_exceptions.md R195). -/
theorem reasonCode_ne_alreadyTerminated (st : Status) : st.reasonCode ≠ Fault.alreadyTerminated.code := by
  cases st with
  | running => decide
  | halted => decide
  | faulted r => exact Nat.ne_of_lt (Nat.lt_succ_of_le (faultReason_code_le_four r))

/-- Settles O59: the codes are the table's, and AlreadyTerminated's is none of the status register's. -/
theorem statusAndErrorCodes : Obligations.StatusAndErrorCodes :=
  ⟨rfl, rfl, fun _ => rfl, rfl, rfl, rfl, rfl, rfl, rfl, rfl, rfl, rfl, reasonCode_ne_alreadyTerminated⟩

end Sys2Proof.Proofs
end

section
/-! SUPPORT. Where a fetched instruction lies: its cells are in memory from `pc` on, so with N's bound `pc` moves past them
without wrapping (10_state.md R28, decision D14). -/

namespace Sys2Proof.Proofs

open Sys2Proof.Machine Sys2Proof.Claims

/-! ## The cells a decode takes -/

theorem decodeOne_cells {make : Param → Instr} (hp : ∀ a, (make a).params = [a]) {raw : Word} {cells rest : List Word}
    {i : Instr} (h : decodeOne make raw cells = .ok (i, rest)) : cells = i.params.map (·.raw) ++ rest := by
  unfold decodeOne at h
  split at h
  · cases h; simp [hp, paramOf]
  · cases h

theorem decodeTwo_cells {make : Param → Param → Instr} (hp : ∀ a b, (make a b).params = [a, b]) {raw : Word}
    {cells rest : List Word} {i : Instr} (h : decodeTwo make raw cells = .ok (i, rest)) :
    cells = i.params.map (·.raw) ++ rest := by
  unfold decodeTwo at h
  split at h
  · cases h; simp [hp, paramOf]
  · cases h

theorem decodeThree_cells {make : Param → Param → Param → Instr} (hp : ∀ a b c, (make a b c).params = [a, b, c])
    {raw : Word} {cells rest : List Word} {i : Instr} (h : decodeThree make raw cells = .ok (i, rest)) :
    cells = i.params.map (·.raw) ++ rest := by
  unfold decodeThree at h
  split at h
  · cases h; simp [hp, paramOf]
  · cases h

/-- A decode takes the instruction word and the instruction's parameter cells in order (30_encoding.md R80). -/
theorem decode_cells {cells rest : List Word} {i : Instr} (h : decode cells = .ok (i, rest)) :
    ∃ raw, cells = raw :: (i.params.map (·.raw) ++ rest) := by
  cases cells with
  | nil => cases h
  | cons raw cells =>
    refine ⟨raw, congrArg (raw :: ·) ?_⟩
    simp only [decode] at h
    split at h
    · cases h
    · exact decodeThree_cells (fun _ _ _ => rfl) h
    · exact decodeThree_cells (fun _ _ _ => rfl) h
    · exact decodeOne_cells (fun _ => rfl) h
    · exact decodeOne_cells (fun _ => rfl) h
    · exact decodeTwo_cells (fun _ _ => rfl) h
    · exact decodeTwo_cells (fun _ _ => rfl) h
    · exact decodeThree_cells (fun _ _ _ => rfl) h
    · exact decodeThree_cells (fun _ _ _ => rfl) h
    · cases h; rfl

/-! ## The cells a fetch reads -/

/-- The cells of a window all lie in memory. -/
theorem window_bounds (m : Memory) (addr : Int) (k : Nat) (h : m.window addr k ≠ []) :
    0 ≤ addr ∧ addr + (m.window addr k).length ≤ m.size := by
  induction k generalizing addr with
  | zero => exact absurd rfl h
  | succ k ih =>
    rw [Memory.window] at h ⊢
    cases hg : m.get? addr with
    | none => simp [hg] at h
    | some v =>
      have hin : m.inBounds addr = true := by
        rw [← Bool.not_eq_false]
        exact fun hb => by rw [Memory.get?_eq_none_iff.mpr hb] at hg; cases hg
      obtain ⟨h0, h1⟩ := Memory.inBounds_iff.mp hin
      by_cases hrest : m.window (addr + 1) k = []
      · simp only [hrest, List.length_singleton]; omega
      · have := (ih (addr + 1) hrest).2
        simp only [List.length_cons]; omega

/-- A fetched instruction lies in memory with all its parameters (40_execution_engine.md R115). -/
theorem fetch_fits {s : State} {i : Instr} (h : s.fetch = .ok i) :
    0 ≤ s.pc.toInt ∧ s.pc.toInt + (1 + i.params.length : Nat) ≤ s.mem.size := by
  unfold State.fetch at h
  split at h
  · rename_i j rest hd
    cases h
    obtain ⟨raw, hcells⟩ := decode_cells hd
    have hne : s.fetchCells ≠ [] := by simp [hcells]
    have hlen : s.fetchCells.length = 1 + i.params.length + rest.length := by simp [hcells]; omega
    obtain ⟨h0, h1⟩ := window_bounds s.mem s.pc.toInt Config.longestInstr hne
    rw [State.fetchCells] at hlen
    omega
  · cases h

/-! ## The advance -/

/-- An advance that stays within the greatest memory does not wrap (log 20). -/
theorem advance_pc_toInt {s : State} {n : Nat} (h0 : 0 ≤ s.pc.toInt) (hn : s.pc.toInt + n ≤ Config.maxCells) :
    (s.advance n).pc.toInt = s.pc.toInt + n := by
  have hmax : (Config.maxCells : Int) < 2 ^ 63 := by decide
  have hofNat : (BitVec.ofNat 64 n).toInt = n := by
    rw [BitVec.toInt_ofNat', Int.bmod_eq_of_le] <;> omega
  rw [State.advance_pc, BitVec.toInt_add, hofNat, Int.bmod_eq_of_le] <;> omega

/-- Where an instruction that is no jump leaves the machine Running and not waiting, it has advanced past its cells. -/
theorem Effect.pc {i : Instr} {s t : State} (h : Effect s i t) (hs : t.status = .running) (hw : t.waiting = false)
    (hj : ¬ IsJump i) : t.pc = (s.advance (1 + i.params.length)).pc := by
  cases h with
  | halts => cases hs
  | waits => cases hw
  | faults => cases hs
  | stores => rfl
  | outputs => rfl
  | jumps _ hj' => exact absurd hj' hj
  | fallsThrough hj' => exact absurd hj' hj

/-- Settles O48: the fetched instruction's cells lie within memory, so the sum stays below N's bound. -/
theorem pcMovesPastTheInstr : Obligations.PcMovesPastTheInstr := by
  intro s t i hwf hf h hs hw hj
  have hjump : ¬ IsJump i := fun ⟨a, b, hi⟩ => hi.elim (hj a b).1 (hj a b).2
  obtain ⟨-, hmax, -⟩ := Memory.wf_iff.mp hwf
  obtain ⟨h0, hfit⟩ := fetch_fits hf
  rcases step_effect h with ⟨i', hf', he⟩ | ⟨r, hf', -⟩
  · obtain rfl : i = i' := Except.ok.inj (hf.symm.trans hf')
    rw [he.pc hs hw hjump, advance_pc_toInt h0 (by omega)]
    push_cast
    omega
  · cases hf.symm.trans hf'

end Sys2Proof.Proofs
end

section
/-! SUPPORT. The program text's grammar and the constructed machine: each part of the parser accepts exactly its rule of
the grammar, and construction is the parse followed by the range and size checks (70_reset_and_hazards.md R230 to R233). -/

namespace Sys2Proof.Proofs

open Sys2Proof.Machine Sys2Proof.Claims

/-! ## Digits and integers -/

/-- The ten digit characters, the list of `Claims.Numeral`. -/
def digitChars : List Char := ['0', '1', '2', '3', '4', '5', '6', '7', '8', '9']

/-- The digit characters are the code points from that of `0` to that of `9`. -/
theorem mem_digitChars_iff {c : Char} : c ∈ digitChars ↔ '0'.toNat ≤ c.toNat ∧ c.toNat ≤ '9'.toNat := by
  constructor
  · have hall : ∀ d ∈ digitChars, '0'.toNat ≤ d.toNat ∧ d.toNat ≤ '9'.toNat := by simp [digitChars]
    exact hall c
  · rintro ⟨h0, h9⟩
    have hall : ∀ k : Fin 10, Char.ofNat ('0'.toNat + k) ∈ digitChars := by decide
    have hc := hall ⟨c.toNat - '0'.toNat, Nat.lt_succ_of_le (Nat.sub_le_sub_right h9 _)⟩
    rwa [Nat.add_sub_cancel' h0, Char.ofNat_toNat] at hc

theorem digitValue_eq_some_iff {c : Char} {d : Nat} :
    digitValue c = some d ↔ c ∈ digitChars ∧ c.toNat - '0'.toNat = d := by
  rw [mem_digitChars_iff, digitValue]
  split <;> simp_all

/-- A run of digits is read to the value `Claims.digitsValue` folds, from any value `acc` of the digits before it. -/
theorem parseDigits_eq_some_iff {acc n : Nat} {cs : List Char} :
    parseDigits acc cs = some n ↔
      (∀ c ∈ cs, c ∈ digitChars) ∧ cs.foldl (fun n c => 10 * n + (c.toNat - '0'.toNat)) acc = n := by
  induction cs generalizing acc with
  | nil => simp [parseDigits]
  | cons c cs ih =>
    rw [parseDigits]
    cases hc : digitValue c with
    | none =>
      have : c ∉ digitChars := fun hm => by simp [digitValue_eq_some_iff.mpr ⟨hm, rfl⟩] at hc
      simp [this]
    | some d =>
      obtain ⟨hm, rfl⟩ := digitValue_eq_some_iff.mp hc
      simp only [ih, List.forall_mem_cons, hm, true_and, List.foldl_cons, Nat.mul_comm acc]

/-- `digit+` (70_reset_and_hazards.md R231). -/
theorem parseNat_eq_some_iff {cs : List Char} {n : Nat} :
    parseNat cs = some n ↔ cs ≠ [] ∧ (∀ c ∈ cs, c ∈ digitChars) ∧ digitsValue cs = n := by
  cases cs with
  | nil => simp [parseNat]
  | cons c cs => simpa [parseNat, digitsValue] using parseDigits_eq_some_iff (acc := 0) (cs := c :: cs)

/-- A numeral that begins with a minus sign is the sign and a run of digits. -/
theorem numeral_minus_iff {cs : List Char} {z : Int} :
    Numeral ('-' :: cs) z ↔ ∃ n, parseNat cs = some n ∧ z = -(n : Int) := by
  simp only [parseNat_eq_some_iff]
  constructor
  · rintro ⟨ds, hne, hall, ⟨rfl, -⟩ | ⟨heq, hz⟩⟩
    · exact absurd (hall '-' (by simp)) (by decide)
    · cases heq
      exact ⟨_, ⟨hne, hall, rfl⟩, hz⟩
  · rintro ⟨n, ⟨hne, hall, rfl⟩, hz⟩
    exact ⟨cs, hne, hall, .inr ⟨rfl, hz⟩⟩

/-- A numeral that does not begin with a minus sign is a run of digits. -/
theorem numeral_unsigned_iff {cs : List Char} {z : Int} (hcs : ∀ ds, cs ≠ '-' :: ds) :
    Numeral cs z ↔ ∃ n, parseNat cs = some n ∧ z = (n : Int) := by
  simp only [parseNat_eq_some_iff]
  constructor
  · rintro ⟨ds, hne, hall, ⟨rfl, hz⟩ | ⟨heq, -⟩⟩
    · exact ⟨_, ⟨hne, hall, rfl⟩, hz⟩
    · exact absurd heq (hcs ds)
  · rintro ⟨n, ⟨hne, hall, rfl⟩, hz⟩
    exact ⟨cs, hne, hall, .inl ⟨rfl, hz⟩⟩

/-- `integer ::= "-"? digit+` (70_reset_and_hazards.md R231). -/
theorem parseInteger_eq_some_iff {cs : List Char} {z : Int} : parseInteger cs = some z ↔ Numeral cs z := by
  unfold parseInteger
  split
  · rename_i cs
    rw [numeral_minus_iff]
    cases parseNat cs <;> simp [eq_comm]
  · rename_i hcs
    rw [numeral_unsigned_iff fun ds h => hcs ds h]
    cases parseNat cs <;> simp [eq_comm]

/-! ## The text -/

/-- The fields between the commas are the library's split at the commas, of the field begun and the rest. -/
theorem splitCommas_eq_splitOn {field : List Char} (hfield : ',' ∉ field) (text : List Char) :
    splitCommas field text = List.splitOn ',' (field ++ text) := by
  induction text generalizing field with
  | nil => rw [splitCommas, List.append_nil, List.splitOn_eq_singleton hfield]
  | cons c cs ih =>
    rw [splitCommas]
    split
    · rename_i hc
      rw [hc, ih List.not_mem_nil, List.nil_append, List.splitOn_append_cons_self_of_not_mem hfield]
    · rename_i hc
      rw [ih (by simp [hfield, Ne.symm hc]), List.append_assoc, List.singleton_append]

/-- A numeral has no comma in it. -/
theorem comma_notMem_of_numeral {cs : List Char} {z : Int} (h : Numeral cs z) : ',' ∉ cs := by
  obtain ⟨ds, -, hall, ⟨rfl, -⟩ | ⟨rfl, -⟩⟩ := h
  · exact fun hm => absurd (hall _ hm) (by decide)
  · rw [List.mem_cons, not_or]
    exact ⟨by decide, fun hm => absurd (hall _ hm) (by decide)⟩

/-- `mapM` succeeds with `ys` exactly where each element does with its own. -/
theorem mapM_eq_some_iff_forall₂ {α β : Type} {f : α → Option β} {xs : List α} {ys : List β} :
    xs.mapM f = some ys ↔ List.Forall₂ (fun x y => f x = some y) xs ys := by
  induction xs generalizing ys with
  | nil => simp [eq_comm]
  | cons x xs ih =>
    rw [List.mapM_cons, List.forall₂_cons_left_iff]
    simp [Option.bind_eq_some_iff, ih, eq_comm (a := ys)]

theorem parseText_eq_some_iff_forall₂ {text : List Char} {zs : List Int} :
    parseText text = some zs ↔ List.Forall₂ Numeral (List.splitOn ',' text) zs := by
  simp only [parseText, splitCommas_eq_splitOn List.not_mem_nil, List.nil_append, mapM_eq_some_iff_forall₂, parseInteger_eq_some_iff]

/-- `text ::= integer ("," integer)*` (70_reset_and_hazards.md R231): splitting at the commas and joining with commas undo
each other on fields without commas. -/
theorem parseText_eq_some_iff {text : List Char} {zs : List Int} :
    parseText text = some zs ↔ IsProgramText text zs := by
  rw [parseText_eq_some_iff_forall₂]
  constructor
  · exact fun h => ⟨_, List.splitOn_ne_nil _ _, h, (List.intercalate_splitOn ',').symm⟩
  · rintro ⟨fields, hne, h, rfl⟩
    have hcomma : ∀ field ∈ fields, ',' ∉ field :=
      ((List.forall₂_and_left _ _).mp (h.imp fun _ _ hz => ⟨comma_notMem_of_numeral hz, hz⟩)).1
    rwa [← List.intercalate, List.splitOn_intercalate ',' hcomma hne]

/-- A program text holds at least one integer. -/
theorem programText_ne_nil {text : List Char} {zs : List Int} (h : IsProgramText text zs) : zs ≠ [] := by
  obtain ⟨fields, hne, hall, -⟩ := h
  rintro rfl
  exact hne (List.forall₂_nil_right_iff.mp hall)

/-! ## The constructed machine -/

theorem inWordRange_iff {z : Int} : inWordRange z = true ↔ -2 ^ 63 ≤ z ∧ z < 2 ^ 63 := by
  simp only [inWordRange, Bool.and_eq_true, decide_eq_true_eq]
  omega

/-- An integer in the 64-bit range is its word's signed value (00_scope.md R5). -/
theorem wrap_toInt {z : Int} (h : -2 ^ 63 ≤ z ∧ z < 2 ^ 63) : (wrap z).toInt = z :=
  BitVec.toInt_ofInt_eq_self (by decide) h.1 h.2

/-- Construction accepts the program texts that fit a machine, and makes the machine of their cells. -/
theorem construct_eq_some_iff {text : List Char} {items : List InputItem} {ended : Bool} {s : State} :
    State.construct text items ended = some s ↔
      ∃ zs, IsProgramText text zs ∧ FitsMachine zs ∧ State.ofCells (zs.map wrap) items ended = s := by
  have hfits (zs : List Int) : (zs.all inWordRange && decide (zs.length ≤ Config.maxCells)) = true ↔ FitsMachine zs := by
    simp only [Bool.and_eq_true, List.all_eq_true, decide_eq_true_eq, inWordRange_iff]
    rfl
  simp only [← parseText_eq_some_iff]
  unfold State.construct
  cases parseText text with
  | none => simp
  | some zs => simp [hfits]

/-- The machine of at least one and not too many cells meets the invariant: it is not waiting. -/
theorem ofCells_inv {vs : List Word} (h1 : vs ≠ []) (h2 : vs.length ≤ Config.maxCells) (items : List InputItem)
    (ended : Bool) : (State.ofCells vs items ended).Inv :=
  ⟨Memory.ofCells_wf (List.length_pos_iff.mpr h1) h2, nofun⟩

/-- Cell k of the machine made of in-range integers holds the k-th of them. -/
theorem get?_ofCells_wrap {zs : List Int} (hfit : FitsMachine zs) {k : Nat} {z : Int} (hz : zs[k]? = some z) :
    ∃ w, (Memory.ofCells (zs.map wrap)).get? k = some w ∧ w.toInt = z :=
  ⟨wrap z, by simp [Memory.get?_ofCells, hz], wrap_toInt (hfit.1 z (List.mem_of_getElem? hz))⟩

/-- Settles O53: construction is the grammar and the fit, and the machine is `State.ofCells` of the integers. -/
theorem constructedMachineState : Obligations.ConstructedMachineState := by
  constructor
  · intro text items ended
    constructor
    · rintro ⟨s, hs⟩
      obtain ⟨zs, htext, hfit, -⟩ := construct_eq_some_iff.mp hs
      exact ⟨zs, htext, hfit⟩
    · rintro ⟨zs, htext, hfit⟩
      exact ⟨_, construct_eq_some_iff.mpr ⟨zs, htext, hfit, rfl⟩⟩
  · intro text items ended s hs
    obtain ⟨zs, htext, hfit, rfl⟩ := construct_eq_some_iff.mp hs
    have hne := programText_ne_nil htext
    exact ⟨zs, htext, parseText_eq_some_iff.mpr htext, hne, List.length_map wrap,
      fun _ _ hz => get?_ofCells_wrap hfit hz, rfl, rfl, rfl, rfl,
      ofCells_inv (by simpa using hne) ((List.length_map wrap).trans_le hfit.2) items ended⟩

end Sys2Proof.Proofs
end

section
/-! SUPPORT. What a fetch reads of memory, cell by cell, and the Memory Store's contract (20_memory.md R51, R54, R65). -/

namespace Sys2Proof.Proofs

open Sys2Proof.Machine Sys2Proof.Claims

/-! ## The cells a fetch reads, one by one -/

/-- A window's cells are those from its address on, as far as memory reaches (20_memory.md R54). -/
theorem window_getElem? (m : Memory) {addr : Int} (h0 : 0 ≤ addr) (n k : Nat) :
    (m.window addr n)[k]? = if k < n then m.get? (addr + k) else none := by
  induction n generalizing addr k with
  | zero => rfl
  | succ n ih =>
    rw [Memory.window]
    cases hg : m.get? addr with
    | none =>
      have hend : ¬ addr < m.size := fun hlt => by
        simp [Memory.get?_eq_none_iff, Memory.inBounds_iff.mpr ⟨h0, hlt⟩] at hg
      have hk : m.get? (addr + k) = none := by
        rw [Memory.get?_eq_none_iff, ← Bool.not_eq_true, Memory.inBounds_iff]
        omega
      simp [hk]
    | some v =>
      cases k with
      | zero => simp [hg]
      | succ k =>
        rw [List.getElem?_cons_succ, ih (by omega), Nat.cast_succ, add_assoc addr, add_comm 1 (k : Int)]
        simp only [Nat.add_lt_add_iff_right]

/-- Settles O7: the fetched cells are the window of four from `pc` on. -/
theorem fetchReadsCellsFromPc : Obligations.FetchReadsCellsFromPc := fun s k h0 =>
  window_getElem? s.mem h0 Config.longestInstr k

/-- A fetch that reads any cell is made from an address that is not negative. -/
theorem pc_nonneg_of_fetchCells {s : State} {k : Nat} {w : Word} (h : s.fetchCells[k]? = some w) :
    0 ≤ s.pc.toInt :=
  (window_bounds s.mem s.pc.toInt Config.longestInstr (List.ne_nil_of_mem (List.mem_of_getElem? h))).1

/-- Settles O8: the next fetch reads the same addresses, each as the write left it. -/
theorem fetchSeesEveryStore : Obligations.FetchSeesEveryStore := by
  intro s m addr v w k hset hw
  have h0 := pc_nonneg_of_fetchCells hw
  rw [fetchReadsCellsFromPc s k h0] at hw
  rw [fetchReadsCellsFromPc (s.setMem m) k h0, State.setMem_mem, State.setMem_pc, Memory.get?_set? hset]
  split at hw
  · rename_i hk
    simp only [if_pos hk, hw, eq_comm (a := addr), apply_ite some]
  · cases hw

/-! ## The Memory Store's contract -/

theorem inBounds_eq_false_iff {m : Memory} {addr : Int} :
    m.inBounds addr = false ↔ ¬ (0 ≤ addr ∧ addr < m.size) := by
  rw [← Bool.not_eq_true, Memory.inBounds_iff]

theorem get?_isSome {m : Memory} {addr : Int} (h : m.inBounds addr = true) : ∃ w, m.get? addr = some w :=
  ⟨_, if_pos h⟩

/-- A position-mode operand outside memory is OutOfBounds (60_exceptions.md R191 (c)). -/
theorem resolve_outOfBounds {m : Memory} {addr : Word} (h : m.inBounds addr.toInt = false) :
    resolve m ⟨0, addr⟩ = .error .outOfBounds := by
  simp [resolve, modeOf_position_iff.mpr rfl, Memory.get?_eq_none_iff.mpr h]

theorem hostGet_outOfBounds {s : State} {addr : Word} (hw : s.waiting = false)
    (h : s.mem.inBounds addr.toInt = false) : hostGet s addr = .outOfBounds := by
  simp [hostGet, hw, Memory.get?_eq_none_iff.mpr h]

theorem hostSet_outOfBounds {s : State} {addr : Word} (v : Word) (hw : s.waiting = false)
    (h : s.mem.inBounds addr.toInt = false) : hostSet s addr v = (s, .outOfBounds) := by
  simp [hostSet, hw, Memory.set?_eq_none_iff.mpr h]

/-- Settles O14: the bounds check decides every access, and a write is one cell's. -/
theorem memoryStoreContract : Obligations.MemoryStoreContract := by
  refine ⟨fun m addr v hout => ?_, fun m addr v h0 h1 => ?_, fun s addr v n hout => ?_⟩
  · have hb := inBounds_eq_false_iff.mpr hout
    exact ⟨Memory.get?_eq_none_iff.mpr hb, Memory.set?_eq_none_iff.mpr hb⟩
  · have hb := Memory.inBounds_iff.mpr ⟨h0, h1⟩
    obtain ⟨m', hm⟩ := Memory.set?_isSome v hb
    exact ⟨get?_isSome hb, m', hm, Memory.set?_size hm, Memory.get?_set?_self hm,
      fun _ => Memory.get?_set?_other hm⟩
  · have hb := inBounds_eq_false_iff.mpr hout
    exact ⟨resolve_outOfBounds hb, storeAndAdvance_outOfBounds v n hb,
      fun hw => ⟨hostGet_outOfBounds hw hb, hostSet_outOfBounds v hw hb⟩⟩

/-! ## Memory after a fault -/

/-- Settles O39: a step that leaves Running without halting keeps memory and `pc`. -/
theorem faultLeavesMemoryAndPc : Obligations.FaultLeavesMemoryAndPc := by
  intro s t r h hr
  rcases step_leaves_running h (by simp [hr]) with ⟨hhalt, -⟩ | ⟨-, -, -, hpc, hmem⟩
  · cases hr.symm.trans hhalt
  · exact ⟨hmem, hpc⟩

end Sys2Proof.Proofs
end

section
/-! SUPPORT. The input wait (20_memory.md R59, 60_exceptions.md R207): what the port answers where only malformed items are
left, and the held step that goes on. -/

namespace Sys2Proof.Proofs

open Sys2Proof.Machine Sys2Proof.Claims

/-! ## The port -/

theorem word?_integer {z : Int} (h : -2 ^ 63 ≤ z ∧ z < 2 ^ 63) : (InputItem.integer z).word? = some (wrap z) :=
  if_pos (inWordRange_iff.mpr h)

/-- The port's malformed items are those of 20_memory.md R59 (decision D9). -/
theorem word?_eq_none_iff {x : InputItem} : x.word? = none ↔ Malformed x := by
  cases x with
  | malformed => simp [InputItem.word?, Malformed]
  | integer z =>
    simp only [InputItem.word?, ite_eq_right_iff, Malformed, reduceCtorEq, InputItem.integer.injEq, false_or,
      exists_eq_left', ← inWordRange_iff, imp_false]

/-- The port drops a front run of malformed items, its cursor moving past them. -/
theorem portReadFrom_malformed {bad : List InputItem} (hbad : ∀ x ∈ bad, Malformed x) (ended : Bool)
    (items : List InputItem) (c : Nat) :
    portReadFrom ended (bad ++ items) c = portReadFrom ended items (c + bad.length) := by
  induction bad generalizing c with
  | nil => rfl
  | cons x bad ih =>
    obtain ⟨hx, hrest⟩ := List.forall_mem_cons.mp hbad
    rw [List.cons_append, portReadFrom, word?_eq_none_iff.mpr hx, List.length_cons, add_comm bad.length,
      ← add_assoc]
    exact ih hrest (c + 1)

/-- `src` when all its items have been consumed and `items` have come after them. -/
def usedUp (src : InputSource) (items : List InputItem) (ended : Bool) : InputSource :=
  { pending := items, consumed := src.consumed + src.pending.length, ended := ended }

/-- With only malformed items left, the port is exhausted or waits, and all of them are consumed. -/
theorem read_of_malformed {src : InputSource} (hbad : ∀ x ∈ src.pending, Malformed x) :
    src.read = (if src.ended then .exhausted else .wait, usedUp src [] src.ended) := by
  have hread := portReadFrom_malformed hbad src.ended [] src.consumed
  rwa [List.append_nil] at hread

/-- The port delivers the first well-formed item and drops the malformed ones in front of it. -/
theorem read_of_item {src : InputSource} {bad rest : List InputItem} {x : InputItem} {v : Word}
    (hsrc : src.pending = bad ++ x :: rest) (hbad : ∀ x ∈ bad, Malformed x) (hx : x.word? = some v) :
    src.read =
      (.value v, { pending := rest, consumed := src.consumed + bad.length + 1, ended := src.ended }) := by
  rw [InputSource.read, hsrc, portReadFrom_malformed hbad, portReadFrom, hx]

/-! ## IN by the port's answer -/

/-- A store inside memory, with all it leaves unchanged. -/
theorem storeAndAdvance_stores {s : State} {addr : Word} (v : Word) (n : Nat) (h0 : 0 ≤ addr.toInt)
    (h1 : addr.toInt < s.mem.size) :
    ∃ t, storeAndAdvance s addr v n = .next t ∧ StoredAndAdvanced s t addr.toInt v n ∧ t.input = s.input := by
  obtain ⟨m, hm, ht⟩ := storeAndAdvance_inBounds v n (Memory.inBounds_iff.mpr ⟨h0, h1⟩)
  exact ⟨_, ht, ⟨Memory.get?_set?_self hm, Memory.set?_size hm, fun _ => Memory.get?_set?_other hm,
    rfl, rfl, rfl, rfl⟩, rfl⟩

section ByAnswer

variable {dst : Param} {s : State} {src : InputSource} (h0 : dst.mode = 0)
include h0

theorem execInp_of_wait (hr : s.input.read = (.wait, src)) :
    exec (.inp dst) s = .next (s.setInput src).hold := by
  simp [exec, execInp, writeModeLegal_iff.mpr h0, hr]

theorem execInp_of_exhausted (hr : s.input.read = (.exhausted, src)) :
    exec (.inp dst) s = .next ((s.setInput src).raise .inputExhausted) := by
  simp [exec, execInp, writeModeLegal_iff.mpr h0, hr, fail]

theorem execInp_of_value {v : Word} (hr : s.input.read = (.value v, src)) :
    exec (.inp dst) s = storeAndAdvance (s.setInput src) dst.raw v 2 := by
  simp [exec, execInp, writeModeLegal_iff.mpr h0, hr]

theorem execInp_stores {v : Word} (hr : s.input.read = (.value v, src)) (hd0 : 0 ≤ dst.raw.toInt)
    (hd1 : dst.raw.toInt < s.mem.size) :
    ∃ t, exec (.inp dst) s = .next t ∧ StoredAndAdvanced s t dst.raw.toInt v 2 ∧ t.input = src := by
  rw [execInp_of_value h0 hr]
  exact storeAndAdvance_stores (s := s.setInput src) v 2 hd0 hd1

end ByAnswer

/-- Settles O27: a port with only malformed items left that has not ended waits. -/
theorem inWithoutItemWaits : Obligations.InWithoutItemWaits := by
  intro dst s h0 hbad hopen
  have hr := read_of_malformed hbad
  rw [hopen] at hr
  exact execInp_of_wait h0 hr

/-! ## The held step -/

theorem step_of_fetch {s : State} {i : Instr} (hs : s.status = .running) (hf : s.fetch = .ok i) :
    step s = exec i s := by
  simp [step, hs, hf]

theorem stepReply_of_step {s t : State} (h : step s = .next t) : (stepReply s).1 = t := by
  simp [stepReply, h]

theorem held_iff_Held {s : State} : s.held = true ↔ Held s := State.held_iff

/-- The move by which a held step goes on is the machine's own step. -/
theorem afterMove_resume_of_step {s t : State} (hh : Held s) (h : step s = .next t) : s.afterMove .resume = t := by
  rw [State.afterMove, hostResume_of_held (held_iff_Held.mpr hh), stepReply_of_step h]

/-- The machine held at `s`'s IN with the input source `src`. -/
def heldWith (s : State) (src : InputSource) : State := (s.setInput src).hold

/-- A held IN, whatever its source has come to hold, goes on as IN, by `step` and by the move `resume`. -/
theorem heldWith_goes_on {s t : State} {dst : Param} {src : InputSource} (hs : s.status = .running)
    (hf : s.fetch = .ok (.inp dst)) (h : exec (.inp dst) (heldWith s src) = .next t) :
    step (heldWith s src) = .next t ∧ (heldWith s src).afterMove .resume = t := by
  have hf' : (heldWith s src).fetch = .ok (.inp dst) := (fetch_congr rfl rfl).trans hf
  have hstep := (step_of_fetch (s := heldWith s src) hs hf').trans h
  exact ⟨hstep, afterMove_resume_of_step ⟨hs, rfl⟩ hstep⟩

/-- The next state of a step that begins the wait. -/
theorem step_begins_wait {s : State} {dst : Param} (hs : s.status = .running) (hf : s.fetch = .ok (.inp dst))
    (h0 : dst.mode = 0) (hbad : ∀ x ∈ s.input.pending, Malformed x) (hopen : s.input.ended = false) :
    step s = .next (heldWith s (usedUp s.input [] false)) :=
  (step_of_fetch hs hf).trans (inWithoutItemWaits dst s h0 hbad hopen)

/-- Settles O28: the held step is IN again, on the source as the host has left it. -/
theorem suppliedItemEndsTheWait : Obligations.SuppliedItemEndsTheWait := by
  constructor
  · intro s dst z hs hf h0 hbad hopen hz0 hz1 hd0 hd1
    have hread := read_of_item (src := usedUp s.input [.integer z] false) (bad := []) rfl
      (List.forall_mem_nil _) (word?_integer ⟨hz0, hz1⟩)
    obtain ⟨t, ht, hstored, hinput⟩ := execInp_stores (s := heldWith s _) h0 hread hd0 hd1
    obtain ⟨hstep, hresume⟩ := heldWith_goes_on hs hf ht
    exact ⟨_, t, wrap z, step_begins_wait hs hf h0 hbad hopen, rfl, hstep, hresume, wrap_toInt ⟨hz0, hz1⟩,
      hstored, congrArg InputSource.pending hinput⟩
  · intro s dst hs hf h0 hbad hopen
    have hin := execInp_of_exhausted (s := heldWith s (usedUp s.input [] true)) h0 rfl
    obtain ⟨hstep, hresume⟩ := heldWith_goes_on hs hf hin
    exact ⟨_, _, step_begins_wait hs hf h0 hbad hopen, rfl, hstep, hresume, rfl⟩

end Sys2Proof.Proofs
end

section
/-! SUPPORT. What no step can see. An update of the state that leaves memory, `pc` and status alone, and that the state's
operations leave alone in turn, goes through a step unnoticed: the output log is such an update (20_memory.md R60) and, for
every instruction but IN, so is the input source (20_memory.md R68). -/

namespace Sys2Proof.Proofs

open Sys2Proof.Machine Sys2Proof.Claims

/-! ## Unseen updates -/

/-- The answer with its next state updated by `g`. -/
def mapNext (g : State → State) : Answer → Answer
  | .next s => .next (g s)
  | .fault r => .fault r
  | .refused r => .refused r

/-- `g` changes nothing that the engine decides by, and commutes with every update of the state but those of the input
source. -/
structure Unseen (g : State → State) : Prop where
  mem (s : State) : (g s).mem = s.mem
  pc (s : State) : (g s).pc = s.pc
  status (s : State) : (g s).status = s.status
  setMem (s : State) (m : Memory) : (g s).setMem m = g (s.setMem m)
  portWrite (s : State) (v : Word) : (g s).portWrite v = g (s.portWrite v)
  advance (s : State) (n : Nat) : (g s).advance n = g (s.advance n)
  jumpTo (s : State) (target : Word) : (g s).jumpTo target = g (s.jumpTo target)
  stop (s : State) : (g s).stop = g s.stop
  raise (s : State) (r : FaultReason) : (g s).raise r = g (s.raise r)

section

variable {g : State → State} (hg : Unseen g)
include hg

theorem fail_unseen (s : State) (r : FaultReason) : fail (g s) r = mapNext g (fail s r) :=
  congrArg Host.Outcome.next (hg.raise s r)

theorem storeAndAdvance_unseen (s : State) (addr v : Word) (n : Nat) :
    storeAndAdvance (g s) addr v n = mapNext g (storeAndAdvance s addr v n) := by
  unfold storeAndAdvance
  rw [hg.mem]
  cases s.mem.set? addr.toInt v with
  | none => exact fail_unseen hg s _
  | some m => simp only [hg.setMem, hg.advance, mapNext]

theorem withOperands_unseen (legal : Bool) (a b : Param) (s : State) {handler handler' : Word → Word → Answer}
    (hh : ∀ va vb, handler' va vb = mapNext g (handler va vb)) :
    withOperands legal a b (g s) handler' = mapNext g (withOperands legal a b s handler) := by
  unfold withOperands
  rw [hg.mem]
  cases legal with
  | false => exact fail_unseen hg s _
  | true =>
    cases resolveTwo s.mem a b with
    | error r => exact fail_unseen hg s r
    | ok v => exact hh v.1 v.2

theorem computeAndStore_unseen (f : Word → Word → Word) (a b dst : Param) (s : State) :
    computeAndStore f a b dst (g s) = mapNext g (computeAndStore f a b dst s) :=
  withOperands_unseen hg _ a b s fun _ _ => storeAndAdvance_unseen hg s _ _ _

theorem jumpWhen_unseen (test : Word → Bool) (a b : Param) (s : State) :
    jumpWhen test a b (g s) = mapNext g (jumpWhen test a b s) :=
  withOperands_unseen hg _ a b s fun _ _ => by simp only [hg.jumpTo, hg.advance, mapNext, apply_ite g]

theorem execOut_unseen (a : Param) (s : State) : execOut a (g s) = mapNext g (execOut a s) := by
  unfold execOut
  rw [hg.mem]
  split
  · cases resolve s.mem a with
    | error r => exact fail_unseen hg s r
    | ok v => simp only [hg.portWrite, hg.advance, mapNext]
  · exact fail_unseen hg s _

/-- IN sees no update that also leaves the input source alone. -/
theorem execInp_unseen (hinput : ∀ s, (g s).input = s.input)
    (hset : ∀ s src, (g s).setInput src = g (s.setInput src)) (hhold : ∀ s, (g s).hold = g s.hold)
    (dst : Param) (s : State) : execInp dst (g s) = mapNext g (execInp dst s) := by
  unfold execInp
  rw [hinput]
  split
  · obtain ⟨answer, src⟩ := s.input.read
    cases answer with
    | wait => simp only [hset, hhold, mapNext]
    | exhausted => simp only [hset]; exact fail_unseen hg _ _
    | value v => simp only [hset]; exact storeAndAdvance_unseen hg _ _ _ _
  · exact fail_unseen hg s _

/-- No instruction but IN sees an unseen update. -/
theorem exec_unseen {i : Instr} (hi : ∀ dst, i ≠ .inp dst) (s : State) : exec i (g s) = mapNext g (exec i s) := by
  cases i with
  | add a b dst => exact computeAndStore_unseen hg addValue a b dst s
  | mult a b dst => exact computeAndStore_unseen hg multValue a b dst s
  | inp dst => exact absurd rfl (hi dst)
  | out a => exact execOut_unseen hg a s
  | jt a b => exact jumpWhen_unseen hg nonZero a b s
  | jf a b => exact jumpWhen_unseen hg (fun v => !nonZero v) a b s
  | lt a b dst => exact computeAndStore_unseen hg (fun x y => truthWord (signedLess x y)) a b dst s
  | eq a b dst => exact computeAndStore_unseen hg (fun x y => truthWord (x == y)) a b dst s
  | halt => exact congrArg Host.Outcome.next (hg.stop s)

/-- What the fetched instruction does not see, the step does not see. -/
theorem step_unseen {s : State} (hexec : ∀ i, s.fetch = .ok i → exec i (g s) = mapNext g (exec i s)) :
    step (g s) = mapNext g (step s) := by
  unfold step
  rw [hg.status, fetch_congr (hg.mem s) (hg.pc s)]
  cases s.status with
  | running =>
    cases hf : s.fetch with
    | ok i => exact hexec i hf
    | error r => exact fail_unseen hg s r
  | halted => rfl
  | faulted r => rfl

end

/-! ## The output log -/

/-- `s` with `log` in front of its output log. -/
def logBefore (log : List Word) (s : State) : State := { s with output := log ++ s.output }

theorem logBefore_unseen (log : List Word) : Unseen (logBefore log) where
  mem _ := rfl
  pc _ := rfl
  status _ := rfl
  setMem _ _ := rfl
  portWrite s v := by simp [logBefore, State.portWrite]
  advance _ _ := rfl
  jumpTo _ _ := rfl
  stop _ := rfl
  raise _ _ := rfl

/-- Whatever the log held before, the step is the same (20_memory.md R60). -/
theorem step_logBefore (log : List Word) (s : State) : step (logBefore log s) = mapNext (logBefore log) (step s) := by
  refine step_unseen (logBefore_unseen log) fun i _ => ?_
  by_cases hi : ∃ dst, i = .inp dst
  · obtain ⟨dst, rfl⟩ := hi
    exact execInp_unseen (logBefore_unseen log) (fun _ => rfl) (fun _ _ => rfl) (fun _ => rfl) dst s
  · exact exec_unseen (logBefore_unseen log) (not_exists.mp hi) s

/-- A next state under an update comes of a next state. -/
theorem mapNext_eq_next {g : State → State} {o : Answer} {t : State} (h : mapNext g o = .next t) :
    ∃ u, o = .next u ∧ t = g u := by
  cases o with
  | next u => cases h; exact ⟨u, rfl, rfl⟩
  | fault r => cases h
  | refused r => cases h

/-- Settles O46: both steps are the step from an empty log, with the log put before it. -/
theorem outputLogIsNeverRead : Obligations.OutputLogIsNeverRead := by
  intro s t log h
  have hlog (l : List Word) : step { s with output := l } = mapNext (logBefore l) (step { s with output := [] }) := by
    rw [← step_logBefore, logBefore, List.append_nil]
  obtain ⟨u, hu, rfl⟩ := mapNext_eq_next ((hlog s.output).symm.trans h)
  exact ⟨u.output, rfl, by rw [hlog, hu]; rfl⟩

/-! ## The input source -/

theorem setInput_unseen (src : InputSource) : Unseen (fun s => s.setInput src) where
  mem _ := rfl
  pc _ := rfl
  status _ := rfl
  setMem _ _ := rfl
  portWrite _ _ := rfl
  advance _ _ := rfl
  jumpTo _ _ := rfl
  stop _ := rfl
  raise _ _ := rfl

/-- A step that fetches no IN is the same with any input source, which it leaves (20_memory.md R68). -/
theorem step_setInput {s t : State} (hin : ∀ dst, s.fetch ≠ .ok (.inp dst)) (h : step s = .next t) (src : InputSource) :
    step (s.setInput src) = .next (t.setInput src) := by
  have hs := step_unseen (setInput_unseen src) (s := s) fun i hf =>
    exec_unseen (setInput_unseen src) (fun dst hi => hin dst (hi ▸ hf)) s
  rwa [h] at hs

/-- Settles O47: the step is the same with any source, and so with its own, which it leaves. -/
theorem onlyInSeesTheInput : Obligations.OnlyInSeesTheInput := by
  intro s t src hin h
  have hown : t = t.setInput s.input := Host.Outcome.next.inj (h.symm.trans (step_setInput hin h s.input))
  exact ⟨(congrArg State.input hown).trans (State.setInput_input t s.input), step_setInput hin h src⟩

end Sys2Proof.Proofs
end

section
/-! SUPPORT. The output log grows by OUT alone: what one step appends, what a number of steps append in turn, and that a
Run is some number of steps (20_memory.md R60, 40_execution_engine.md R122). -/

namespace Sys2Proof.Proofs

open Sys2Proof.Machine Sys2Proof.Claims

/-! ## What one step appends -/

/-- A read-class parameter has a value exactly where it resolves to it (30_encoding.md R88). -/
theorem operand_iff_resolve {m : Memory} {p : Param} {v : Word} : Operand m p v ↔ resolve m p = .ok v := by
  constructor
  · rintro (⟨h0, hv⟩ | ⟨h1, rfl⟩)
    · exact resolve_position h0 hv
    · exact resolve_immediate m h1
  · intro h
    rcases resolve_cases m p with ⟨h1, hp⟩ | ⟨h0, w, hw, hp⟩ | ⟨-, -, hp⟩ | ⟨-, -, hp⟩
    · cases hp.symm.trans h; exact .inr ⟨h1, rfl⟩
    · cases hp.symm.trans h; exact .inl ⟨h0, hw⟩
    · cases hp.symm.trans h
    · cases hp.symm.trans h

theorem readModeLegal_of_operand {m : Memory} {p : Param} {v : Word} (h : Operand m p v) : readModeLegal p = true :=
  readModeLegal_iff.mpr (h.imp And.left And.left)

theorem execOut_of_operand {s : State} {a : Param} {v : Word} (h : Operand s.mem a v) :
    exec (.out a) s = .next ((s.portWrite v).advance 2) := by
  simp [exec, execOut, readModeLegal_of_operand h, operand_iff_resolve.mp h]

/-- An instruction that is no OUT leaves the output log. -/
theorem Effect.output {i : Instr} {s t : State} (h : Effect s i t) : t.output = s.output ∨ ∃ a, i = .out a := by
  cases h with
  | outputs => exact .inr ⟨_, rfl⟩
  | halts => exact .inl rfl
  | waits => exact .inl rfl
  | faults => exact .inl rfl
  | stores => exact .inl rfl
  | jumps => exact .inl rfl
  | fallsThrough => exact .inl rfl

/-- A step leaves the output log, or runs an OUT whose operand has a value. -/
theorem step_output {s t : State} (h : step s = .next t) :
    t.output = s.output ∨ ∃ a v, s.status = .running ∧ s.fetch = .ok (.out a) ∧ Operand s.mem a v := by
  obtain ⟨hs, ⟨i, hf, hexec⟩ | ⟨r, -, rfl⟩⟩ := step_cases h
  · rcases (effect_of_exec hexec).output with hout | ⟨a, rfl⟩
    · exact .inl hout
    · rcases execOut_cases hexec with ⟨-, rfl⟩ | ⟨-, ⟨-, rfl⟩ | ⟨v, hv, -⟩⟩
      · exact .inl rfl
      · exact .inl rfl
      · exact .inr ⟨a, v, hs, hf, operand_iff_resolve.mpr hv⟩
  · exact .inl rfl

/-- What a step, or the refusal of one, appends to the output log. -/
theorem stepReply_appends (s : State) : ∃ vs, Appends s vs ∧ (stepReply s).1.output = s.output ++ vs := by
  by_cases hout : ∃ a v, s.status = .running ∧ s.fetch = .ok (.out a) ∧ Operand s.mem a v
  · obtain ⟨a, v, hs, hf, hv⟩ := hout
    have hstep := (step_of_fetch hs hf).trans (execOut_of_operand hv)
    exact ⟨[v], .inl ⟨a, v, hs, hf, hv, rfl⟩, congrArg State.output (stepReply_of_step hstep)⟩
  · refine ⟨[], .inr ⟨hout, rfl⟩, ?_⟩
    rw [List.append_nil]
    rcases stepReply_cases s with ⟨t, ht, hr⟩ | ⟨-, hr⟩ | ⟨-, hr⟩
    · rw [hr]; exact (step_output ht).resolve_right hout
    · rw [hr]
    · rw [hr]

/-! ## A number of steps, and a run -/

theorem hostStep_of_not_Held {s : State} (h : ¬ Held s) : hostStep s = stepReply s :=
  hostStep_of_not_held (held_iff_Held.not.mpr h)

theorem afterSteps_succ_left (s : State) (n : Nat) : afterSteps s (n + 1) = afterSteps (hostStep s).1 n := by
  induction n with
  | zero => rfl
  | succ n ih => rw [afterSteps, ih, ← afterSteps]

/-- Steps none of which is requested while another is held append in turn what each of them appends. -/
theorem afterSteps_appends {s : State} {n : Nat} (hfree : ∀ j < n, ¬ Held (afterSteps s j)) :
    ∃ vss : List (List Word), vss.length = n ∧
      (∀ (j : Nat) (vs : List Word), vss[j]? = some vs → Appends (afterSteps s j) vs) ∧
      (afterSteps s n).output = s.output ++ vss.flatten := by
  induction n with
  | zero => exact ⟨[], rfl, by simp, by simp [afterSteps]⟩
  | succ n ih =>
    obtain ⟨vss, rfl, happ, hout⟩ := ih fun j hj => hfree j (by omega)
    obtain ⟨vs, hvs, hvsout⟩ := stepReply_appends (afterSteps s vss.length)
    refine ⟨vss ++ [vs], List.length_append, fun j ws hj => ?_, ?_⟩
    · rcases Nat.lt_trichotomy j vss.length with hlt | rfl | hgt
      · exact happ j ws (by rwa [List.getElem?_append_left hlt] at hj)
      · rw [List.getElem?_concat_length, Option.some.injEq] at hj
        rwa [← hj]
      · rw [List.getElem?_eq_none (by simpa using hgt)] at hj
        cases hj
    · rw [afterSteps, hostStep_of_not_Held (hfree _ (Nat.lt_succ_self _)), hvsout, hout]
      simp

/-- The loop of Run makes some number of steps within its bound, none of them requested while another is held. -/
theorem runLoop_steps (fuel : Nat) (s : State) :
    ∃ n ≤ fuel, (runLoop fuel s).1 = afterSteps s n ∧ ∀ j < n, ¬ Held (afterSteps s j) := by
  induction fuel generalizing s with
  | zero => exact ⟨0, Nat.le_refl 0, rfl, by simp⟩
  | succ fuel ih =>
    rw [runLoop_succ]
    split
    · rename_i hgo
      have hfree : ¬ Held s := held_iff_Held.not.mp hgo.2
      obtain ⟨n, hn, hrun, hsteps⟩ := ih (stepReply s).1
      rw [← hostStep_of_not_Held hfree] at hrun hsteps ⊢
      refine ⟨n + 1, Nat.succ_le_succ hn, hrun.trans (afterSteps_succ_left s n).symm, fun j hj => ?_⟩
      cases j with
      | zero => exact hfree
      | succ j => rw [afterSteps_succ_left]; exact hsteps j (by omega)
    · exact ⟨0, Nat.zero_le _, rfl, by simp⟩

/-- A Run makes some number of steps within its bound, none of them requested while another is held. -/
theorem hostRun_steps (fuel : Nat) (s : State) :
    ∃ n ≤ fuel, (hostRun fuel s).1 = afterSteps s n ∧ ∀ j < n, ¬ Held (afterSteps s j) := by
  unfold hostRun
  split
  · exact ⟨0, Nat.zero_le _, rfl, by simp⟩
  · split
    · exact runLoop_steps fuel s
    · exact ⟨0, Nat.zero_le _, rfl, by simp⟩

/-! ## What the other moves append -/

/-- SetMemory, supplying items and ending the source leave the output log. -/
theorem afterMove_output {s : State} {mv : HostMove} (hstep : mv ≠ .step) (hresume : mv ≠ .resume)
    (hrun : ∀ fuel, mv ≠ .run fuel) : (s.afterMove mv).output = s.output := by
  cases mv with
  | step => exact absurd rfl hstep
  | resume => exact absurd rfl hresume
  | run fuel => exact absurd rfl (hrun fuel)
  | setMemory addr v =>
    simp only [State.afterMove, hostSet]
    split
    · rfl
    · split <;> rfl
  | supply items =>
    simp only [State.afterMove, hostSupply]
    split <;> rfl
  | endInput => rfl

/-- Settles O45: a step appends what OUT appends, a run what its steps append in turn, and nothing else is made. -/
theorem outputGrowsOnlyByOut : Obligations.OutputGrowsOnlyByOut := by
  refine ⟨fun s hfree => ?_, fun s hheld => ?_, fun s fuel _ => ?_, fun s fuel => ⟨fun hheld => ?_, fun hfree => ?_⟩,
    fun s mv => afterMove_output⟩
  · rw [State.afterMove, hostStep_of_not_Held hfree]
    exact stepReply_appends s
  · rw [State.afterMove, hostResume_of_held (held_iff_Held.mpr hheld)]
    exact stepReply_appends s
  · obtain ⟨n, hn, hrun, hfree⟩ := hostRun_steps fuel s
    obtain ⟨vss, rfl, happ, hout⟩ := afterSteps_appends hfree
    exact ⟨vss, hn, hrun, happ, (congrArg State.output hrun).trans hout⟩
  · have hh := held_iff_Held.mpr hheld
    exact ⟨congrArg Prod.fst (hostStep_of_held hh), congrArg Prod.fst (hostRun_of_held fuel hh)⟩
  · exact congrArg Prod.fst (hostResume_of_not_held (held_iff_Held.not.mpr hfree))

end Sys2Proof.Proofs
end

section
/-! SUPPORT. The decoder and the encoder, each said by the same two facts about the instruction word: its two low digits
are the opcode, and each digit above them is one parameter's mode (30_encoding.md R80, R81, R89, R94). -/

namespace Sys2Proof.Proofs

open Sys2Proof.Machine Sys2Proof.Claims

/-! ## The opcode of a word -/

/-- The table is read by the opcode's number (30_encoding.md R89, R91). -/
theorem ofNumber?_eq_some_iff {n : Nat} {op : Opcode} : Opcode.ofNumber? n = some op ↔ n = op.number := by
  constructor
  · intro h
    unfold Opcode.ofNumber? at h
    split at h <;> cases h <;> rfl
  · rintro rfl
    cases op <;> rfl

theorem number_lt (op : Opcode) : op.number < 100 := by cases op <;> decide

/-- A word that is not negative has the same signed and unsigned value. -/
theorem toInt_of_nonneg {w : Word} (h : 0 ≤ w.toInt) : w.toInt = w.toNat := by
  rw [BitVec.toInt_eq_toNat_cond] at h ⊢
  split at h <;> omega

theorem opcodeOf_eq_some_iff {raw : Word} {op : Opcode} :
    opcodeOf raw = some op ↔ 0 ≤ raw.toInt ∧ raw.toNat % 100 = op.number := by
  rw [← ofNumber?_eq_some_iff, opcodeOf]
  split
  · simp; omega
  · simp; omega

/-! ## The mode digits of a word -/

/-- From digit position `i` up, the digits of `raw` are the parameters' mode digits (30_encoding.md R81). -/
def ModesAt (raw : Nat) : Nat → List Param → Prop
  | _, [] => True
  | i, p :: ps => p.mode = decimalDigit raw i ∧ ModesAt raw (i + 1) ps

theorem pow_dvd_modeDigits (i : Nat) (ps : List Param) : 10 ^ i ∣ modeDigits i ps := by
  induction ps generalizing i with
  | nil => exact Nat.dvd_zero _
  | cons p ps ih => exact (Nat.dvd_mul_left ..).add ((pow_dvd_pow 10 i.le_succ).trans (ih (i + 1)))

/-- The encoder's digits are read back: below position `i` stands any number `c` of `i` digits (30_encoding.md R94). -/
theorem modesAt_add_modeDigits {c i : Nat} (hc : c < 10 ^ i) (ps : List Param) :
    ModesAt (c + modeDigits i ps) i ps := by
  induction ps generalizing c i with
  | nil => trivial
  | cons p ps ih =>
    have hm := p.mode.isLt
    have hpos : 0 < 10 ^ i := by positivity
    rw [modeDigits, ← add_assoc]
    refine ⟨Fin.ext ?_, ih ?_⟩
    · obtain ⟨q, hq⟩ := pow_dvd_modeDigits (i + 1) ps
      have hsum : c + p.mode * 10 ^ i + modeDigits (i + 1) ps = c + 10 ^ i * (p.mode + 10 * q) := by rw [hq]; ring
      have hdigit : (c + 10 ^ i * (p.mode + 10 * q)) / 10 ^ i % 10 = p.mode := by
        rw [Nat.add_mul_div_left _ _ hpos, Nat.div_eq_of_lt hc]; omega
      rw [hsum]
      exact hdigit.symm
    · calc c + p.mode * 10 ^ i
        _ < 10 ^ i + 9 * 10 ^ i := Nat.add_lt_add_of_lt_of_le hc (Nat.mul_le_mul_right _ (by omega))
        _ = 10 ^ (i + 1) := by ring

/-- The low digits of a word that carries these modes are what the encoder writes for them. -/
theorem ModesAt.mod_pow {raw i : Nat} {ps : List Param} (h : ModesAt raw i ps) :
    raw % 10 ^ (i + ps.length) = raw % 10 ^ i + modeDigits i ps := by
  induction ps generalizing i with
  | nil => rfl
  | cons p ps ih =>
    obtain ⟨hp, hps⟩ := h
    have hdigit : (p.mode : Nat) = raw / 10 ^ i % 10 := congrArg Fin.val hp
    rw [List.length_cons, ← add_assoc, add_right_comm, ih hps, Nat.mod_pow_succ, modeDigits, hdigit]
    ring

/-! ## What the decoder reads from a word -/

theorem decodeOne_reads {make : Param → Instr} {op : Opcode} {raw : Word} {cells rest : List Word} {i : Instr}
    (hop : opcodeOf raw = some op) (h : decodeOne make raw cells = .ok (i, rest))
    (hmake : ∀ a, (make a).opcode = op ∧ (make a).params = [a]) :
    opcodeOf raw = some i.opcode ∧ ModesAt raw.toNat 2 i.params := by
  unfold decodeOne at h
  split at h
  · cases h; simp [hop, hmake, ModesAt, paramOf]
  · cases h

theorem decodeTwo_reads {make : Param → Param → Instr} {op : Opcode} {raw : Word} {cells rest : List Word} {i : Instr}
    (hop : opcodeOf raw = some op) (h : decodeTwo make raw cells = .ok (i, rest))
    (hmake : ∀ a b, (make a b).opcode = op ∧ (make a b).params = [a, b]) :
    opcodeOf raw = some i.opcode ∧ ModesAt raw.toNat 2 i.params := by
  unfold decodeTwo at h
  split at h
  · cases h; simp [hop, hmake, ModesAt, paramOf]
  · cases h

theorem decodeThree_reads {make : Param → Param → Param → Instr} {op : Opcode} {raw : Word} {cells rest : List Word}
    {i : Instr} (hop : opcodeOf raw = some op) (h : decodeThree make raw cells = .ok (i, rest))
    (hmake : ∀ a b c, (make a b c).opcode = op ∧ (make a b c).params = [a, b, c]) :
    opcodeOf raw = some i.opcode ∧ ModesAt raw.toNat 2 i.params := by
  unfold decodeThree at h
  split at h
  · cases h; simp [hop, hmake, ModesAt, paramOf]
  · cases h

/-- A decoded instruction's opcode and modes are those of the word (30_encoding.md R81, R83). -/
theorem decode_reads {raw : Word} {cells rest : List Word} {i : Instr} (h : decode (raw :: cells) = .ok (i, rest)) :
    opcodeOf raw = some i.opcode ∧ ModesAt raw.toNat 2 i.params := by
  rw [decode] at h
  cases hop : opcodeOf raw with
  | none => rw [hop] at h; cases h
  | some op =>
    rw [hop] at h
    rw [← hop]
    cases op with
    | add | mult | lt | eq => exact decodeThree_reads hop h fun _ _ _ => ⟨rfl, rfl⟩
    | inp | out => exact decodeOne_reads hop h fun _ => ⟨rfl, rfl⟩
    | jt | jf => exact decodeTwo_reads hop h fun _ _ => ⟨rfl, rfl⟩
    | halt => cases h; exact ⟨hop, trivial⟩

theorem paramOf_raw {raw : Word} {k : Nat} {p : Param} (h : p.mode = decimalDigit raw.toNat (k + 1)) :
    paramOf raw k p.raw = p := by
  rw [paramOf, ← h]

/-- The decoder finds every instruction whose opcode and modes the word carries and whose cells follow it. -/
theorem decode_of_reads {raw : Word} {i : Instr} (hop : opcodeOf raw = some i.opcode)
    (hm : ModesAt raw.toNat 2 i.params) (rest : List Word) :
    decode (raw :: (i.params.map (·.raw) ++ rest)) = .ok (i, rest) := by
  cases i with
  | add a b dst | mult a b dst | lt a b dst | eq a b dst =>
    obtain ⟨ha, hb, hd, -⟩ := hm
    simp [decode, decodeThree, hop, Instr.opcode, Instr.params, paramOf_raw ha, paramOf_raw hb, paramOf_raw hd]
  | jt a b | jf a b =>
    obtain ⟨ha, hb, -⟩ := hm
    simp [decode, decodeTwo, hop, Instr.opcode, Instr.params, paramOf_raw ha, paramOf_raw hb]
  | inp a | out a =>
    obtain ⟨ha, -⟩ := hm
    simp [decode, decodeOne, hop, Instr.opcode, Instr.params, paramOf_raw ha]
  | halt => simp [decode, hop, Instr.opcode, Instr.params]

/-! ## The encoder's word -/

theorem encodedWord (i : Instr) : Laws.EncodedWord.Statement i := by
  cases i with
  | add a b dst => exact Laws.EncodedWord.add a b dst
  | mult a b dst => exact Laws.EncodedWord.mult a b dst
  | inp dst => exact Laws.EncodedWord.inp dst
  | out a => exact Laws.EncodedWord.out a
  | jt a b => exact Laws.EncodedWord.jt a b
  | jf a b => exact Laws.EncodedWord.jf a b
  | lt a b dst => exact Laws.EncodedWord.lt a b dst
  | eq a b dst => exact Laws.EncodedWord.eq a b dst
  | halt => exact Laws.EncodedWord.halt

theorem modesAt_instrWord (i : Instr) : ModesAt (instrWord i).toNat 2 i.params := by
  rw [(encodedWord i).1]
  exact modesAt_add_modeDigits (number_lt i.opcode) i.params

/-- The canonical word of an instruction is the low n + 2 digits of every word that carries its opcode and modes. -/
theorem instrWord_toNat_of_reads {raw : Word} {i : Instr} (hop : raw.toNat % 100 = i.opcode.number)
    (hm : ModesAt raw.toNat 2 i.params) : (instrWord i).toNat = raw.toNat % 10 ^ (i.params.length + 2) := by
  rw [add_comm, hm.mod_pow, (encodedWord i).1, ← hop]
  rfl

/-- Settles O1: the encoder's word carries the instruction's opcode and modes. -/
theorem decodeOfEncodeGivesInstrBack : Obligations.DecodeOfEncodeGivesInstrBack := by
  intro i rest
  obtain ⟨-, -, hop, -⟩ := encodedWord i
  exact decode_of_reads hop (modesAt_instrWord i) rest

/-- Settles O2: the decoded word carries the instruction's opcode and modes, so its low digits are the canonical word. -/
theorem decodedCellsAreWordThenParameters : Obligations.DecodedCellsAreWordThenParameters := by
  intro cells rest i h
  obtain ⟨raw, rfl⟩ := decode_cells h
  obtain ⟨hop, hm⟩ := decode_reads h
  obtain ⟨hpos, hnum⟩ := opcodeOf_eq_some_iff.mp hop
  refine ⟨raw, rfl, hpos, ?_⟩
  obtain ⟨-, hlt, -, -⟩ := encodedWord i
  rw [BitVec.toInt_eq_toNat_of_lt (by omega), instrWord_toNat_of_reads hnum hm, toInt_of_nonneg hpos]
  push_cast
  rfl

/-- Settles O3: the decoder runs on six fixed lists of cells. -/
theorem handWrittenWordsDecode : Obligations.HandWrittenWordsDecode := by
  unfold Obligations.HandWrittenWordsDecode
  decide

/-! ## Words with no opcode -/

theorem number_mem_table (op : Opcode) : (op.number : Int) ∈ [1, 2, 3, 4, 5, 6, 7, 8, 99] := by
  cases op <;> decide

theorem opcodeOf_eq_none_of_unknown {raw : Word} (hpos : 0 ≤ raw.toInt)
    (hout : raw.toInt % 100 ∉ [1, 2, 3, 4, 5, 6, 7, 8, 99]) : opcodeOf raw = none := by
  rw [Option.eq_none_iff_forall_ne_some]
  intro op hop
  obtain ⟨-, hnum⟩ := opcodeOf_eq_some_iff.mp hop
  have hmod : raw.toInt % 100 = op.number := by rw [toInt_of_nonneg hpos, ← hnum]; rfl
  exact hout (hmod ▸ number_mem_table op)

/-- The instruction word is the cell at `pc` (20_memory.md R54). -/
theorem fetchCells_eq_cons {s : State} {raw : Word} (h : s.mem.get? s.pc.toInt = some raw) :
    ∃ cells, s.fetchCells = raw :: cells :=
  ⟨s.mem.window (s.pc.toInt + 1) 3, by rw [State.fetchCells, Config.longestInstr, Memory.window, h]⟩

theorem fetch_of_opcodeOf_none {s : State} {raw : Word} (hraw : s.mem.get? s.pc.toInt = some raw)
    (hop : opcodeOf raw = none) : s.fetch = .error .invalidOpcode := by
  obtain ⟨cells, hcells⟩ := fetchCells_eq_cons hraw
  simp [State.fetch, hcells, decode, hop, fetchFault]

theorem step_of_fetch_error {s : State} {r : FaultReason} (hs : s.status = .running) (hf : s.fetch = .error r) :
    step s = .next (s.raise r) := by
  simp [step, hs, hf, fail_eq]

/-- Settles O4: the table has no row for the word, and the fetch's fault ends the step. -/
theorem unknownOpcodeTakesInvalidOpcode : Obligations.UnknownOpcodeTakesInvalidOpcode := fun _ _ hs hraw hpos hout =>
  step_of_fetch_error hs (fetch_of_opcodeOf_none hraw (opcodeOf_eq_none_of_unknown hpos hout))

end Sys2Proof.Proofs
end

section
/-! SUPPORT. The judging of mode digits (30_encoding.md R85 to R88): the model's check, the well-formedness of an instruction
and the rule's legality are one, and an instruction that fails it does nothing but fault. -/

namespace Sys2Proof.Proofs

open Sys2Proof.Machine Sys2Proof.Claims

/-! ## Operand resolution -/

/-- Settles O13: the digit alone picks the form. -/
theorem resolveFollowsModeDigit : Obligations.ResolveFollowsModeDigit := by
  refine fun m p => ⟨fun h0 => ?_, resolve_immediate m, fun h0 h1 => ?_⟩
  · cases hg : m.get? p.raw.toInt with
    | some v => exact resolve_position h0 hg
    | none =>
      obtain ⟨d, addr⟩ := p
      obtain rfl : d = 0 := h0
      exact resolve_outOfBounds (Memory.get?_eq_none_iff.mp hg)
  · simp [resolve, modeOf_none_iff.mpr ⟨h0, h1⟩]

/-! ## Legality -/

theorem readOk_iff {p : Param} : p.readOk = true ↔ ReadLegal p := by simp [Param.readOk, ReadLegal]

theorem writeOk_iff {p : Param} : p.writeOk = true ↔ p.mode = 0 := by simp [Param.writeOk]

theorem readModeLegal_eq_readOk (p : Param) : readModeLegal p = p.readOk :=
  Bool.eq_iff_iff.mpr (readModeLegal_iff.trans readOk_iff.symm)

theorem writeModeLegal_eq_writeOk (p : Param) : writeModeLegal p = p.writeOk :=
  Bool.eq_iff_iff.mpr (writeModeLegal_iff.trans writeOk_iff.symm)

/-- Settles O16: each constructor's check is the legality of its read-class parameters and of its destination. -/
theorem wellFormedIsLegalModes : Obligations.WellFormedIsLegalModes := by
  intro i
  cases i <;> simp [Instr.wellFormed, LegalModes, readParams, destination, readOk_iff, writeOk_iff]

/-! ## Executing an instruction with an illegal mode -/

theorem computeAndStore_of_illegal {a b dst : Param} (h : (a.readOk && b.readOk && dst.writeOk) = false)
    (f : Word → Word → Word) (s : State) : computeAndStore f a b dst s = .next (s.raise .invalidAddressingMode) := by
  rw [computeAndStore, readModeLegal_eq_readOk, readModeLegal_eq_readOk, writeModeLegal_eq_writeOk, h]
  rfl

theorem jumpWhen_of_illegal {a b : Param} (h : (a.readOk && b.readOk) = false) (test : Word → Bool) (s : State) :
    jumpWhen test a b s = .next (s.raise .invalidAddressingMode) := by
  rw [jumpWhen, readModeLegal_eq_readOk, readModeLegal_eq_readOk, h]
  rfl

theorem execInp_of_illegal {dst : Param} (h : dst.writeOk = false) (s : State) :
    execInp dst s = .next (s.raise .invalidAddressingMode) := by
  rw [execInp, writeModeLegal_eq_writeOk, h]
  rfl

theorem execOut_of_illegal {a : Param} (h : a.readOk = false) (s : State) :
    execOut a s = .next (s.raise .invalidAddressingMode) := by
  rw [execOut, readModeLegal_eq_readOk, h]
  rfl

/-- Step 5a comes before the operands and the ports (30_encoding.md R87, decisions D5 and D6). -/
theorem exec_of_not_wellFormed {i : Instr} (h : i.wellFormed = false) (s : State) :
    exec i s = .next (s.raise .invalidAddressingMode) := by
  cases i with
  | add => exact computeAndStore_of_illegal h addValue s
  | mult => exact computeAndStore_of_illegal h multValue s
  | inp => exact execInp_of_illegal h s
  | out => exact execOut_of_illegal h s
  | jt => exact jumpWhen_of_illegal h nonZero s
  | jf => exact jumpWhen_of_illegal h (fun v => !nonZero v) s
  | lt => exact computeAndStore_of_illegal h (fun x y => truthWord (signedLess x y)) s
  | eq => exact computeAndStore_of_illegal h (fun x y => truthWord (x == y)) s
  | halt => cases h

/-- Settles O15: an illegal mode is an instruction that is not well formed. -/
theorem illegalModeTakesInvalidAddressingMode : Obligations.IllegalModeTakesInvalidAddressingMode := fun i s hill =>
  exec_of_not_wellFormed (Bool.eq_false_iff.mpr fun hwf => hill ((wellFormedIsLegalModes i).mp hwf)) s

end Sys2Proof.Proofs
end

section
/-! SUPPORT. Steps 1 to 4 of the step algorithm (40_execution_engine.md R111): the terminal state, the fetch that gives
an instruction with the cells after its word, and the two fetches that take OutOfBounds. -/

namespace Sys2Proof.Proofs

open Sys2Proof.Machine Sys2Proof.Claims

/-! ## What the decoder answers for a known opcode -/

theorem decodeOne_answers (make : Param → Instr) (raw : Word) (cells : List Word) :
    (1 ≤ cells.length ∧ ∃ x, decodeOne make raw cells = .ok x) ∨
      (cells.length < 1 ∧ decodeOne make raw cells = .error .doesNotFit) := by
  rcases cells with _ | ⟨p1, rest⟩
  · exact .inr ⟨by simp, rfl⟩
  · exact .inl ⟨by simp, _, rfl⟩

theorem decodeTwo_answers (make : Param → Param → Instr) (raw : Word) (cells : List Word) :
    (2 ≤ cells.length ∧ ∃ x, decodeTwo make raw cells = .ok x) ∨
      (cells.length < 2 ∧ decodeTwo make raw cells = .error .doesNotFit) := by
  rcases cells with _ | ⟨p1, _ | ⟨p2, rest⟩⟩
  · exact .inr ⟨by simp, rfl⟩
  · exact .inr ⟨by simp, rfl⟩
  · exact .inl ⟨by simp, _, rfl⟩

theorem decodeThree_answers (make : Param → Param → Param → Instr) (raw : Word) (cells : List Word) :
    (3 ≤ cells.length ∧ ∃ x, decodeThree make raw cells = .ok x) ∨
      (cells.length < 3 ∧ decodeThree make raw cells = .error .doesNotFit) := by
  rcases cells with _ | ⟨p1, _ | ⟨p2, _ | ⟨p3, rest⟩⟩⟩
  · exact .inr ⟨by simp, rfl⟩
  · exact .inr ⟨by simp, rfl⟩
  · exact .inr ⟨by simp, rfl⟩
  · exact .inl ⟨by simp, _, rfl⟩

/-- A known opcode's decode succeeds exactly where its n parameter cells are there (30_encoding.md R89). -/
theorem decode_answers {raw : Word} {op : Opcode} (hop : opcodeOf raw = some op) (cells : List Word) :
    (op.paramCount ≤ cells.length ∧ ∃ x, decode (raw :: cells) = .ok x) ∨
      (cells.length < op.paramCount ∧ decode (raw :: cells) = .error .doesNotFit) := by
  rw [decode, hop]
  cases op with
  | add | mult | lt | eq => exact decodeThree_answers _ raw cells
  | inp | out => exact decodeOne_answers _ raw cells
  | jt | jf => exact decodeTwo_answers _ raw cells
  | halt => exact .inl ⟨Nat.zero_le _, _, rfl⟩

theorem params_length (i : Instr) : i.params.length = i.opcode.paramCount := by
  cases i <;> rfl

theorem paramCount_le_three (op : Opcode) : op.paramCount ≤ 3 := by
  cases op <;> decide

/-! ## The fetch -/

theorem inBounds_of_get? {m : Memory} {addr : Int} {v : Word} (h : m.get? addr = some v) :
    0 ≤ addr ∧ addr < m.size := by
  rw [← Memory.inBounds_iff, ← Bool.not_eq_false]
  intro hout
  cases h.symm.trans (Memory.get?_eq_none_iff.mpr hout)

/-- The cells fetched reach as far as memory does, up to the longest instruction (20_memory.md R54). -/
theorem lt_fetchCells_length_iff {s : State} (h0 : 0 ≤ s.pc.toInt) (k : Nat) :
    k < s.fetchCells.length ↔ k < 4 ∧ s.pc.toInt + k < s.mem.size := by
  rw [← not_iff_not, Nat.not_lt, ← List.getElem?_eq_none_iff, fetchReadsCellsFromPc s k h0]
  split
  · rw [Memory.get?_eq_none_iff, inBounds_eq_false_iff]
    omega
  · simp only [true_iff]
    omega

/-- The cells after a known opcode's word number at least n exactly where the instruction fits
(40_execution_engine.md R115). -/
theorem paramCount_le_cells_iff {s : State} {raw : Word} {cells : List Word} (op : Opcode)
    (hraw : s.mem.get? s.pc.toInt = some raw) (hcells : s.fetchCells = raw :: cells) :
    op.paramCount ≤ cells.length ↔ s.pc.toInt + 1 + op.paramCount ≤ s.mem.size := by
  have hlen := lt_fetchCells_length_iff (inBounds_of_get? hraw).1 op.paramCount
  rw [hcells, List.length_cons] at hlen
  have h3 := paramCount_le_three op
  omega

theorem fetch_of_decode {s : State} {i : Instr} {rest : List Word} (h : decode s.fetchCells = .ok (i, rest)) :
    s.fetch = .ok i := by
  rw [State.fetch, h]

/-- The fetch's fault where `pc` is outside memory (40_execution_engine.md R113). -/
theorem fetch_of_pc_outside {s : State} (h : ¬ (0 ≤ s.pc.toInt ∧ s.pc.toInt < s.mem.size)) :
    s.fetch = .error .outOfBounds := by
  have hcells : s.fetchCells = [] := by
    rw [State.fetchCells, Config.longestInstr, Memory.window,
      Memory.get?_eq_none_iff.mpr (inBounds_eq_false_iff.mpr h)]
  rw [State.fetch, hcells]
  rfl

section Known

variable {s : State} {raw : Word} {op : Opcode} (hraw : s.mem.get? s.pc.toInt = some raw)
  (hop : opcodeOf raw = some op)
include hraw hop

/-- The fetch's fault where a known opcode's parameters do not all lie in memory (40_execution_engine.md R115). -/
theorem fetch_of_not_fit (hfit : s.pc.toInt + 1 + op.paramCount > s.mem.size) : s.fetch = .error .outOfBounds := by
  obtain ⟨cells, hcells⟩ := fetchCells_eq_cons hraw
  have hn := paramCount_le_cells_iff op hraw hcells
  rcases decode_answers hop cells with ⟨hle, -⟩ | ⟨-, herr⟩
  · omega
  · rw [State.fetch, hcells, herr]
    rfl

theorem fetch_of_fit (hfit : s.pc.toInt + 1 + op.paramCount ≤ s.mem.size) : ∃ i, s.fetch = .ok i := by
  obtain ⟨cells, hcells⟩ := fetchCells_eq_cons hraw
  have hn := paramCount_le_cells_iff op hraw hcells
  rcases decode_answers hop cells with ⟨-, ⟨i, rest⟩, hok⟩ | ⟨hlt, -⟩
  · exact ⟨i, fetch_of_decode (hcells ▸ hok)⟩
  · omega

end Known

/-- What `i` has of the cells at `pc` (30_encoding.md R80, R81): its opcode and modes are the word's, and its parameters
are the cells after the word. -/
structure ReadAt (s : State) (raw : Word) (i : Instr) : Prop where
  opcode : opcodeOf raw = some i.opcode
  modes : ModesAt raw.toNat 2 i.params
  cell (k : Nat) (p : Param) (hp : i.params[k]? = some p) : s.mem.get? (s.pc.toInt + 1 + k) = some p.raw

/-- A fetched instruction is read from the cells at `pc`. -/
theorem readAt_of_fetch {s : State} {raw : Word} {i : Instr} (hraw : s.mem.get? s.pc.toInt = some raw)
    (hf : s.fetch = .ok i) : ReadAt s raw i := by
  unfold State.fetch at hf
  split at hf
  · rename_i j rest hd
    cases hf
    obtain ⟨cells, hcells⟩ := fetchCells_eq_cons hraw
    obtain ⟨hop, hmodes⟩ := decode_reads (hcells ▸ hd)
    refine ⟨hop, hmodes, fun k p hp => ?_⟩
    obtain ⟨raw', hparams⟩ := decode_cells hd
    have hcell : s.fetchCells[k + 1]? = some p.raw := by
      obtain ⟨hk, -⟩ := List.getElem?_eq_some_iff.mp hp
      rw [hparams, List.getElem?_cons_succ, List.getElem?_append_left (by simpa using hk), List.getElem?_map, hp]
      rfl
    rw [fetchReadsCellsFromPc s (k + 1) (inBounds_of_get? hraw).1] at hcell
    split at hcell
    · rw [← hcell, Nat.cast_succ, add_assoc, add_comm (1 : Int)]
    · cases hcell
  · cases hf

/-! ## The statements about the first steps -/

/-- Settles O6: the fetch is the decode of the cells at `pc`. -/
theorem stepRunsTheDecodedInstr : Obligations.StepRunsTheDecodedInstr := fun _ _ _ hs hd =>
  step_of_fetch hs (fetch_of_decode hd)

/-- Settles O9: the fetch's fault ends the step. -/
theorem pcOutsideMemoryTakesOutOfBounds : Obligations.PcOutsideMemoryTakesOutOfBounds := fun _ hs hout =>
  step_of_fetch_error hs (fetch_of_pc_outside hout)

/-- Settles O10: the cells fetched after the word number at least n exactly where the instruction fits. -/
theorem instrMustFitInMemory : Obligations.InstrMustFitInMemory := by
  intro s raw op hs hraw hop
  refine ⟨fun hfit => step_of_fetch_error hs (fetch_of_not_fit hraw hop hfit), fun hfit => ?_, fun hhalt => ?_⟩
  · obtain ⟨i, hf⟩ := fetch_of_fit hraw hop hfit
    have hread := readAt_of_fetch hraw hf
    obtain rfl : i.opcode = op := Option.some.inj (hread.opcode.symm.trans hop)
    exact ⟨i, rfl, params_length i, step_of_fetch hs hf, hread.cell⟩
  · subst hhalt
    have hpc := (inBounds_of_get? hraw).2
    simp only [Opcode.paramCount]
    omega

/-- No step is made in a terminal state (40_execution_engine.md R112). -/
theorem step_of_terminal {s : State} (hs : s.status ≠ .running) : step s = .fault .alreadyTerminated := by
  unfold step
  split
  · contradiction
  · rfl
  · rfl

theorem not_Held_of_terminal {s : State} (hs : s.status ≠ .running) : ¬ Held s := fun h => hs h.1

theorem hostStep_of_terminal {s : State} (hs : s.status ≠ .running) : hostStep s = (s, .alreadyTerminated) := by
  rw [hostStep_of_not_Held (not_Held_of_terminal hs), stepReply, step_of_terminal hs]

/-- Where a step changes nothing, no number of them does. -/
theorem afterSteps_of_fixed {s : State} (hs : (hostStep s).1 = s) (n : Nat) : afterSteps s n = s := by
  induction n with
  | zero => rfl
  | succ n ih => rw [afterSteps, ih, hs]

/-- Settles O11: the refused request leaves the state it was made in. -/
theorem terminalStepIsAlreadyTerminated : Obligations.TerminalStepIsAlreadyTerminated := by
  intro s hs
  have hstep := hostStep_of_terminal hs
  refine ⟨step_of_terminal hs, fun n => ?_⟩
  have hn := afterSteps_of_fixed (s := s) (congrArg Prod.fst hstep) n
  exact ⟨hn, by rw [hn, hstep]⟩

/-- Settles O41: HALT stops the machine, and a step that leaves Running any other way faults. -/
theorem haltedExactlyByHalt : Obligations.HaltedExactlyByHalt := by
  intro s t hs h
  constructor
  · intro ht
    rcases step_leaves_running h (by simp [ht]) with ⟨-, hf⟩ | ⟨r, hr, -⟩
    · exact hf
    · cases ht.symm.trans hr
  · intro hf
    have hstop : step s = .next s.stop := step_of_fetch hs hf
    cases hstop.symm.trans h
    exact State.stop_status s

/-! ## Every instruction answers a next state -/

theorem storeAndAdvance_answers (s : State) (addr v : Word) (n : Nat) : ∃ t, storeAndAdvance s addr v n = .next t := by
  cases hb : s.mem.inBounds addr.toInt with
  | false => exact ⟨_, storeAndAdvance_outOfBounds v n hb⟩
  | true =>
    obtain ⟨m, -, ht⟩ := storeAndAdvance_inBounds v n hb
    exact ⟨_, ht⟩

theorem withOperands_answers (legal : Bool) (a b : Param) (s : State) {handler : Word → Word → Answer}
    (hh : ∀ va vb, ∃ t, handler va vb = .next t) : ∃ t, withOperands legal a b s handler = .next t := by
  unfold withOperands
  split
  · split
    · exact ⟨_, rfl⟩
    · exact hh _ _
  · exact ⟨_, rfl⟩

theorem computeAndStore_answers (f : Word → Word → Word) (a b dst : Param) (s : State) :
    ∃ t, computeAndStore f a b dst s = .next t :=
  withOperands_answers _ a b s fun _ _ => storeAndAdvance_answers s _ _ _

theorem jumpWhen_answers (test : Word → Bool) (a b : Param) (s : State) : ∃ t, jumpWhen test a b s = .next t :=
  withOperands_answers _ a b s fun _ _ => ⟨_, rfl⟩

theorem execInp_answers (dst : Param) (s : State) : ∃ t, execInp dst s = .next t := by
  unfold execInp
  split
  · split
    · exact ⟨_, rfl⟩
    · exact ⟨_, rfl⟩
    · exact storeAndAdvance_answers _ _ _ _
  · exact ⟨_, rfl⟩

theorem execOut_answers (a : Param) (s : State) : ∃ t, execOut a s = .next t := by
  unfold execOut
  split
  · split
    · exact ⟨_, rfl⟩
    · exact ⟨_, rfl⟩
  · exact ⟨_, rfl⟩

theorem exec_answers (i : Instr) (s : State) : ∃ t, exec i s = .next t := by
  cases i with
  | add a b dst => exact computeAndStore_answers addValue a b dst s
  | mult a b dst => exact computeAndStore_answers multValue a b dst s
  | inp dst => exact execInp_answers dst s
  | out a => exact execOut_answers a s
  | jt a b => exact jumpWhen_answers nonZero a b s
  | jf a b => exact jumpWhen_answers (fun v => !nonZero v) a b s
  | lt a b dst => exact computeAndStore_answers (fun x y => truthWord (signedLess x y)) a b dst s
  | eq a b dst => exact computeAndStore_answers (fun x y => truthWord (x == y)) a b dst s
  | halt => exact ⟨_, rfl⟩

/-- Settles O12: the fetch's fault is a next state, and every instruction answers one. -/
theorem runningStepAnswersNext : Obligations.RunningStepAnswersNext := by
  intro s hs
  cases hf : s.fetch with
  | ok i =>
    obtain ⟨t, ht⟩ := exec_answers i s
    exact ⟨t, (step_of_fetch hs hf).trans ht⟩
  | error r => exact ⟨_, step_of_fetch_error hs hf⟩

end Sys2Proof.Proofs
end

section
/-! SUPPORT. Step 5b (40_execution_engine.md R117): with legal modes, an instruction one of whose operands lies outside
memory takes OutOfBounds. -/

namespace Sys2Proof.Proofs

open Sys2Proof.Machine Sys2Proof.Claims

/-! ## Operands outside memory -/

theorem resolve_of_badAddress {m : Memory} {p : Param} (h : BadAddress m p) : resolve m p = .error .outOfBounds := by
  obtain ⟨d, addr⟩ := p
  obtain ⟨rfl, hout⟩ := h
  exact resolve_outOfBounds (inBounds_eq_false_iff.mpr hout)

/-- One bad operand is enough, read or not (60_exceptions.md R191 (c)). -/
theorem withOperands_of_badAddress {legal : Bool} {a b : Param}
    (hl : legal = true → readModeLegal a = true ∧ readModeLegal b = true) (hlegal : legal = true) {s : State}
    (hbad : ∃ p ∈ [a, b], BadAddress s.mem p) (handler : Word → Word → Answer) :
    withOperands legal a b s handler = .next (s.raise .outOfBounds) := by
  obtain ⟨p, hp, hbad⟩ := hbad
  have herr := resolve_of_badAddress hbad
  rcases withOperands_cases hl s handler with ⟨hill, -⟩ | ⟨-, -, hw⟩ | ⟨-, va, vb, ha, hb, -⟩
  · cases hill.symm.trans hlegal
  · exact hw
  · rcases List.mem_pair.mp hp with rfl | rfl
    · cases ha.symm.trans herr
    · cases hb.symm.trans herr

theorem computeAndStore_of_badAddress {a b dst : Param} (hwf : (a.readOk && b.readOk && dst.writeOk) = true) {s : State}
    (hbad : ∃ p ∈ [a, b], BadAddress s.mem p) (f : Word → Word → Word) :
    computeAndStore f a b dst s = .next (s.raise .outOfBounds) := by
  refine withOperands_of_badAddress (fun hl => ?_) ?_ hbad _
  · simp only [Bool.and_eq_true] at hl
    exact hl.1
  · rwa [readModeLegal_eq_readOk, readModeLegal_eq_readOk, writeModeLegal_eq_writeOk]

theorem jumpWhen_of_badAddress {a b : Param} (hwf : (a.readOk && b.readOk) = true) {s : State}
    (hbad : ∃ p ∈ [a, b], BadAddress s.mem p) (test : Word → Bool) :
    jumpWhen test a b s = .next (s.raise .outOfBounds) := by
  refine withOperands_of_badAddress (fun hl => Bool.and_eq_true_iff.mp hl) ?_ hbad _
  rwa [readModeLegal_eq_readOk, readModeLegal_eq_readOk]

theorem execOut_of_badAddress {a : Param} (hwf : a.readOk = true) {s : State} (hbad : BadAddress s.mem a) :
    execOut a s = .next (s.raise .outOfBounds) := by
  rw [execOut, readModeLegal_eq_readOk, hwf, resolve_of_badAddress hbad]
  rfl

/-- Settles O17: the operands are all resolved before the instruction does anything with them. -/
theorem operandOutsideTakesOutOfBounds : Obligations.OperandOutsideTakesOutOfBounds := by
  intro i s hlegal hbad
  have hwf := (wellFormedIsLegalModes i).mpr hlegal
  cases i with
  | add => exact computeAndStore_of_badAddress hwf hbad addValue
  | mult => exact computeAndStore_of_badAddress hwf hbad multValue
  | inp => simp [readParams] at hbad
  | out => exact execOut_of_badAddress hwf (by simpa [readParams] using hbad)
  | jt => exact jumpWhen_of_badAddress hwf hbad nonZero
  | jf => exact jumpWhen_of_badAddress hwf hbad (fun v => !nonZero v)
  | lt => exact computeAndStore_of_badAddress hwf hbad (fun x y => truthWord (signedLess x y))
  | eq => exact computeAndStore_of_badAddress hwf hbad (fun x y => truthWord (x == y))
  | halt => simp [readParams] at hbad

end Sys2Proof.Proofs
end

section
/-! SUPPORT. A Run is repeated Step (40_execution_engine.md R122, R123): it makes the steps up to the first state it
cannot step from, and no more than its bound. -/

namespace Sys2Proof.Proofs

open Sys2Proof.Machine Sys2Proof.Claims

/-! ## One step and its reply -/

/-- What is told of a step that answers `t`: that it is held, or the status after it. -/
theorem stepReply_eq_of_step {s t : State} (h : step s = .next t) :
    stepReply s = (t, if t.waiting = true then .waiting else .status t.status) := by
  rw [stepReply, h]

theorem hostResume_of_not_Held {s : State} (h : ¬ Held s) : hostResume s = (s, .noMove) :=
  hostResume_of_not_held (held_iff_Held.not.mpr h)

/-! ## The states a Run steps from -/

/-- A Run steps on from `s`: it is Running and no step is in progress. -/
def GoesOn (s : State) : Prop := s.status = .running ∧ ¬ Held s

/-- A Step where a Run would stop changes nothing. -/
theorem hostStep_of_not_goesOn {s : State} (h : ¬ GoesOn s) : (hostStep s).1 = s := by
  by_cases hs : s.status = .running
  · have hheld : Held s := not_not.mp fun hfree => h ⟨hs, hfree⟩
    rw [hostStep_of_held (held_iff_Held.mpr hheld)]
  · rw [hostStep_of_terminal hs]

/-- From the first state a Run stops at, further Steps stay there. -/
theorem afterSteps_of_not_goesOn {s : State} {j k : Nat} (hjk : j ≤ k) (h : ¬ GoesOn (afterSteps s j)) :
    afterSteps s k = afterSteps s j := by
  induction k, hjk using Nat.le_induction with
  | base => rfl
  | succ k _ ih => rw [afterSteps, ih, hostStep_of_not_goesOn h]

/-- A Run of `s` with this bound makes `n` steps. -/
structure RunMakes (s : State) (fuel n : Nat) : Prop where
  le : n ≤ fuel
  before (j : Nat) (hj : j < n) : GoesOn (afterSteps s j)
  stops (hn : n < fuel) : ¬ GoesOn (afterSteps s n)

theorem RunMakes.unique {s : State} {fuel n k : Nat} (hn : RunMakes s fuel n) (hk : RunMakes s fuel k) : n = k := by
  rcases Nat.lt_trichotomy n k with hlt | heq | hgt
  · exact absurd (hk.before n hlt) (hn.stops (hlt.trans_le hk.le))
  · exact heq
  · exact absurd (hn.before k hgt) (hk.stops (hgt.trans_le hn.le))

theorem goesOn_iff {s : State} : GoesOn s ↔ s.status = .running ∧ ¬ s.held = true :=
  and_congr_right fun _ => held_iff_Held.not.symm

theorem runLoop_of_goesOn {s : State} (fuel : Nat) (h : GoesOn s) :
    runLoop (fuel + 1) s = runLoop fuel (hostStep s).1 := by
  rw [runLoop_succ, if_pos (goesOn_iff.mp h), hostStep_of_not_Held h.2]

theorem runLoop_of_not_goesOn {s : State} (fuel : Nat) (h : ¬ GoesOn s) :
    runLoop (fuel + 1) s = (s, runReply s) := by
  rw [runLoop_succ, if_neg (goesOn_iff.not.mp h)]

/-- The loop of Run makes its steps one by one and tells of the state it stops at. -/
theorem runLoop_makes (fuel : Nat) (s : State) :
    ∃ n, RunMakes s fuel n ∧ runLoop fuel s = (afterSteps s n, runReply (afterSteps s n)) := by
  induction fuel generalizing s with
  | zero => exact ⟨0, ⟨Nat.le_refl 0, nofun, nofun⟩, rfl⟩
  | succ fuel ih =>
    by_cases hgo : GoesOn s
    · obtain ⟨n, ⟨hle, hbefore, hstops⟩, hrun⟩ := ih (hostStep s).1
      simp only [← afterSteps_succ_left] at hbefore hstops hrun
      refine ⟨n + 1, ⟨Nat.succ_le_succ hle, fun j hj => ?_, fun hn => hstops (Nat.lt_of_succ_lt_succ hn)⟩, ?_⟩
      · cases j with
        | zero => exact hgo
        | succ j => exact hbefore j (Nat.lt_of_succ_lt_succ hj)
      · rw [runLoop_of_goesOn fuel hgo, hrun]
    · exact ⟨0, ⟨Nat.zero_le _, nofun, fun _ => hgo⟩, runLoop_of_not_goesOn fuel hgo⟩

theorem hostRun_of_goesOn {s : State} (fuel : Nat) (h : GoesOn s) : hostRun fuel s = runLoop fuel s := by
  rw [hostRun, if_neg (held_iff_Held.not.mpr h.2), if_pos h.1]

/-- The Run that makes `n` steps leads to the state after them. -/
theorem hostRun_of_runMakes {s : State} {fuel n : Nat} (hgo : GoesOn s) (h : RunMakes s fuel n) :
    hostRun fuel s = (afterSteps s n, runReply (afterSteps s n)) := by
  obtain ⟨k, hk, hrun⟩ := runLoop_makes fuel s
  rw [hostRun_of_goesOn fuel hgo, h.unique hk, hrun]

/-! ## What is told of a Run -/

theorem runReply_of_terminal {s : State} (hs : s.status ≠ .running) : runReply s = .status s.status := if_pos hs

theorem runReply_of_Held {s : State} (h : Held s) : runReply s = .waiting := by
  rw [runReply, if_neg (not_not.mpr h.1), if_pos h.2]

theorem runReply_of_goesOn {s : State} (h : GoesOn s) : runReply s = .stillRunning := by
  rw [runReply, if_neg (not_not.mpr h.1), if_neg fun hw => h.2 ⟨h.1, hw⟩]

theorem runReply_eq_status {s : State} {st : Status} (h : runReply s = .status st) :
    st = s.status ∧ s.status ≠ .running := by
  by_cases hs : s.status = .running
  · by_cases hh : Held s
    · cases (runReply_of_Held hh).symm.trans h
    · cases (runReply_of_goesOn ⟨hs, hh⟩).symm.trans h
  · cases (runReply_of_terminal hs).symm.trans h
    exact ⟨rfl, hs⟩

theorem hostRun_of_terminal {s : State} (fuel : Nat) (hs : s.status ≠ .running) :
    hostRun fuel s = (s, .alreadyTerminated) := by
  rw [hostRun, if_neg (held_iff_Held.not.mpr (not_Held_of_terminal hs)), if_neg hs]

/-! ## The ends of a Run -/

/-- A Run reaches the first terminal state within its bound. -/
theorem hostRun_reaches_terminal {s : State} {fuel k : Nat} (hk : k ≤ fuel) (hs : s.status = .running)
    (hbefore : ∀ j, j < k → (afterSteps s j).status = .running) (hend : (afterSteps s k).status ≠ .running) :
    hostRun fuel s = (afterSteps s k, .status (afterSteps s k).status) := by
  have hgo (j : Nat) (hj : j < k) : GoesOn (afterSteps s j) := not_not.mp fun hstop =>
    hend ((afterSteps_of_not_goesOn hj.le hstop).symm ▸ hbefore j hj)
  have hpos : 0 < k := Nat.pos_of_ne_zero (by rintro rfl; exact hend hs)
  rw [hostRun_of_runMakes (s := s) (hgo 0 hpos) ⟨hk, hgo, fun _ hrunning => hend hrunning.1⟩, runReply_of_terminal hend]

/-- A Run stops at the first held step within its bound. -/
theorem hostRun_reaches_Held {s : State} {fuel k : Nat} (hk : k ≤ fuel) (hs : ¬ Held s)
    (hbefore : ∀ j, j < k → ¬ Held (afterSteps s j)) (hend : Held (afterSteps s k)) :
    hostRun fuel s = (afterSteps s k, .waiting) := by
  have hgo (j : Nat) (hj : j < k) : GoesOn (afterSteps s j) := not_not.mp fun hstop =>
    hbefore j hj (afterSteps_of_not_goesOn hj.le hstop ▸ hend)
  have hpos : 0 < k := Nat.pos_of_ne_zero (by rintro rfl; exact hs hend)
  rw [hostRun_of_runMakes (s := s) (hgo 0 hpos) ⟨hk, hgo, fun _ hfree => hfree.2 hend⟩, runReply_of_Held hend]

/-- A Run whose states all go on makes as many steps as its bound. -/
theorem hostRun_reaches_bound {s : State} {fuel : Nat} (hgo : ∀ j, j ≤ fuel → GoesOn (afterSteps s j)) :
    hostRun fuel s = (afterSteps s fuel, .stillRunning) := by
  rw [hostRun_of_runMakes (s := s) (hgo 0 (Nat.zero_le _))
      ⟨Nat.le_refl _, fun j hj => hgo j hj.le, fun h => absurd h (lt_irrefl _)⟩,
    runReply_of_goesOn (hgo fuel (Nat.le_refl _))]

/-- A Run that replies a status has reached the first terminal state. -/
theorem hostRun_replies_status {s t : State} {fuel : Nat} {st : Status} (hs : s.status = .running)
    (hrun : hostRun fuel s = (t, .status st)) :
    st = t.status ∧ t.status ≠ .running ∧
      ∃ k, k ≤ fuel ∧ afterSteps s k = t ∧ ∀ j, j < k → (afterSteps s j).status = .running := by
  by_cases hheld : Held s
  · cases (hostRun_of_held fuel (held_iff_Held.mpr hheld)).symm.trans hrun
  · obtain ⟨n, hn, hloop⟩ := runLoop_makes fuel s
    obtain ⟨rfl, hreply⟩ := Prod.mk.inj ((hloop.symm.trans (hostRun_of_goesOn fuel ⟨hs, hheld⟩).symm).trans hrun)
    obtain ⟨hst, hend⟩ := runReply_eq_status hreply
    exact ⟨hst, hend, n, hn.le, rfl, fun j hj => (hn.before j hj).1⟩

/-- Settles O56: a Run makes its steps up to the first state it cannot step from, and each end is one such state. -/
theorem runIsRepeatedStep : Obligations.RunIsRepeatedStep := by
  refine ⟨fun s t h => ⟨fun hfree => ?_, fun hheld => ?_⟩, fun _ => hostResume_of_not_Held,
    fun _ _ _ => hostRun_reaches_terminal, fun _ _ _ => hostRun_reaches_Held, fun _ _ => hostRun_reaches_bound,
    fun _ _ _ _ => hostRun_replies_status,
    fun _ fuel hs => ⟨hostStep_of_terminal hs, hostRun_of_terminal fuel hs⟩⟩
  · rw [hostStep_of_not_Held hfree, stepReply_eq_of_step h]
  · rw [hostResume_of_held (held_iff_Held.mpr hheld), stepReply_eq_of_step h]

end Sys2Proof.Proofs
end

section
/-! SUPPORT. The step algorithm as 40_execution_engine.md R111 writes it, over the decimal digits of the word at `pc`: what
it answers case by case, and that the model's decoder, its checks and the nine meanings answer the same. -/

namespace Sys2Proof.Proofs

open Sys2Proof.Machine Sys2Proof.Claims

/-! ## The rule's parts -/

/-- The rule's `p_k`: the k-th cell after the instruction word. -/
def ruleCell (s : State) (k : Nat) : Word := (s.mem.get? (s.pc.toInt + k)).getD 0

/-- The rule's `v_k` (step 5b): none is OutOfBounds. -/
def ruleOperand (s : State) (raw : Int) (k : Nat) : Option Word :=
  if raw / 10 ^ (k + 1) % 10 = 0 then s.mem.get? (ruleCell s k).toInt else some (ruleCell s k)

/-- The rule's `Advance` (step 7). -/
def rulePc (s : State) (raw : Int) : Word := BitVec.ofInt 64 (s.pc.toInt + 1 + countOf (raw % 100))

/-- The rule's store of `z` at the destination `p_k`, with the input source left. -/
def ruleStore (s : State) (raw : Int) (src : InputSource) (k : Nat) (z : Int) : State :=
  match s.mem.set? (ruleCell s k).toInt (BitVec.ofInt 64 z) with
  | none => faultedAs (s.setInput src) .outOfBounds
  | some m => { s with mem := m, input := src, pc := rulePc s raw, waiting := false }

/-- The rule's step 5a for parameter `k`. -/
def ruleModeLegal (raw : Int) (k : Nat) : Bool :=
  if writes (raw % 100) k then decide (raw / 10 ^ (k + 1) % 10 = 0)
  else decide (raw / 10 ^ (k + 1) % 10 = 0 ∨ raw / 10 ^ (k + 1) % 10 = 1)

/-- The rule's step 5a for all n parameters. -/
def ruleModesLegal (raw : Int) : Bool := (List.range (countOf (raw % 100))).all fun k => ruleModeLegal raw (k + 1)

/-! ## Steps 5b to 7 of the rule, case by case -/

section Run

variable {s : State} {raw : Int}

theorem runByRule_halt (hop : raw % 100 = 99) : runByRule s raw = s.stop := by
  simp only [runByRule, hop, if_true]
  rfl

theorem runByRule_inp_waits {src : InputSource} (hop : raw % 100 = 3) (hr : s.input.read = (.wait, src)) :
    runByRule s raw = (s.setInput src).hold := by
  simp [runByRule, hop, hr, State.setInput, State.hold]

theorem runByRule_inp_exhausted {src : InputSource} (hop : raw % 100 = 3) (hr : s.input.read = (.exhausted, src)) :
    runByRule s raw = (s.setInput src).raise .inputExhausted := by
  simp [runByRule, hop, hr, State.setInput, State.raise]

theorem runByRule_inp_stores {src : InputSource} {v : Word} (hop : raw % 100 = 3)
    (hr : s.input.read = (.value v, src)) : runByRule s raw = ruleStore s raw src 1 v.toInt := by
  simp only [runByRule, hop, hr, ruleStore, rulePc]
  rfl

theorem runByRule_first_outside (hop : raw % 100 ≠ 99 ∧ raw % 100 ≠ 3) (h1 : ruleOperand s raw 1 = none) :
    runByRule s raw = faultedAs s .outOfBounds := by
  unfold ruleOperand ruleCell at h1
  simp only [runByRule, hop, h1, if_false]

theorem runByRule_out {x : Word} (hop : raw % 100 = 4) (h1 : ruleOperand s raw 1 = some x) :
    runByRule s raw = { s with output := s.output ++ [x], pc := rulePc s raw, waiting := false } := by
  unfold ruleOperand ruleCell at h1
  simp only [runByRule, hop, h1, rulePc]
  rfl

theorem runByRule_second_outside {x : Word} (hop : raw % 100 ≠ 99 ∧ raw % 100 ≠ 3 ∧ raw % 100 ≠ 4)
    (h1 : ruleOperand s raw 1 = some x) (h2 : ruleOperand s raw 2 = none) :
    runByRule s raw = faultedAs s .outOfBounds := by
  unfold ruleOperand ruleCell at h1 h2
  simp only [runByRule, hop, h1, h2, if_false]

section Values

variable {x y : Word} (h1 : ruleOperand s raw 1 = some x) (h2 : ruleOperand s raw 2 = some y)
include h1 h2

theorem runByRule_jt (hop : raw % 100 = 5) :
    runByRule s raw = { s with pc := if x.toInt ≠ 0 then y else rulePc s raw, waiting := false } := by
  unfold ruleOperand ruleCell at h1 h2
  simp only [runByRule, hop, h1, h2, rulePc]
  rfl

theorem runByRule_jf (hop : raw % 100 = 6) :
    runByRule s raw = { s with pc := if x.toInt = 0 then y else rulePc s raw, waiting := false } := by
  unfold ruleOperand ruleCell at h1 h2
  simp only [runByRule, hop, h1, h2, rulePc]
  rfl

theorem runByRule_add (hop : raw % 100 = 1) :
    runByRule s raw = ruleStore s raw s.input 3 (x.toInt + y.toInt) := by
  unfold ruleOperand ruleCell at h1 h2
  simp only [runByRule, hop, h1, h2, ruleStore, rulePc]
  rfl

theorem runByRule_mult (hop : raw % 100 = 2) :
    runByRule s raw = ruleStore s raw s.input 3 (x.toInt * y.toInt) := by
  unfold ruleOperand ruleCell at h1 h2
  simp only [runByRule, hop, h1, h2, ruleStore, rulePc]
  rfl

theorem runByRule_lt (hop : raw % 100 = 7) :
    runByRule s raw = ruleStore s raw s.input 3 (if x.toInt < y.toInt then 1 else 0) := by
  unfold ruleOperand ruleCell at h1 h2
  simp only [runByRule, hop, h1, h2, ruleStore, rulePc]
  rfl

theorem runByRule_eq (hop : raw % 100 = 8) :
    runByRule s raw = ruleStore s raw s.input 3 (if x.toInt = y.toInt then 1 else 0) := by
  unfold ruleOperand ruleCell at h1 h2
  simp only [runByRule, hop, h1, h2, ruleStore, rulePc]
  rfl

end Values

end Run

/-! ## The decoder and the decimal digits -/

theorem ofNumber?_isSome_of_mem : ∀ n : Fin 100, (n.val : Int) ∈ [1, 2, 3, 4, 5, 6, 7, 8, 99] →
    (Opcode.ofNumber? n.val).isSome = true := by decide

/-- The rule's step 3 is the table's (30_encoding.md R82, R91). -/
theorem opcodeOf_eq_none_iff {raw : Word} :
    opcodeOf raw = none ↔ raw.toInt < 0 ∨ raw.toInt % 100 ∉ [1, 2, 3, 4, 5, 6, 7, 8, 99] := by
  by_cases hneg : raw.toInt < 0
  · exact iff_of_true (if_pos hneg) (.inl hneg)
  · have hpos := not_lt.mp hneg
    refine ⟨fun hnone => .inr fun hmem => ?_, fun h => opcodeOf_eq_none_of_unknown hpos (h.resolve_left hneg)⟩
    rw [toInt_of_nonneg hpos] at hmem
    have hsome := ofNumber?_isSome_of_mem ⟨raw.toNat % 100, Nat.mod_lt _ (by decide)⟩ hmem
    rw [opcodeOf, if_neg hneg] at hnone
    rw [hnone] at hsome
    cases hsome

theorem countOf_number (op : Opcode) : countOf op.number = op.paramCount := by
  cases op <;> rfl

/-- HALT, IN and OUT have fewer than two parameters (30_encoding.md R89). -/
theorem number_of_two_params {op : Opcode} : 2 ≤ op.paramCount → op.number ≠ 99 ∧ op.number ≠ 3 ∧ op.number ≠ 4 := by
  cases op <;> decide

theorem toInt_mod_of_opcodeOf {raw : Word} {op : Opcode} (hop : opcodeOf raw = some op) :
    raw.toInt % 100 = op.number := by
  obtain ⟨hpos, hnum⟩ := opcodeOf_eq_some_iff.mp hop
  rw [toInt_of_nonneg hpos, ← hnum]
  rfl

theorem countOf_of_opcodeOf {raw : Word} {op : Opcode} (hop : opcodeOf raw = some op) :
    countOf (raw.toInt % 100) = op.paramCount := by
  rw [toInt_mod_of_opcodeOf hop, countOf_number]

theorem known_of_opcodeOf {raw : Word} {op : Opcode} (hop : opcodeOf raw = some op) :
    ¬ (raw.toInt < 0 ∨ raw.toInt % 100 ∉ [1, 2, 3, 4, 5, 6, 7, 8, 99]) :=
  opcodeOf_eq_none_iff.not.mp (hop ▸ Option.some_ne_none op)

/-- The k-th parameter's mode digit stands k positions above the first one's (30_encoding.md R81). -/
theorem ModesAt.mode {raw i k : Nat} {ps : List Param} {p : Param} (h : ModesAt raw i ps) (hp : ps[k]? = some p) :
    p.mode = decimalDigit raw (i + k) := by
  induction ps generalizing i k with
  | nil => cases hp
  | cons q ps ih =>
    obtain ⟨hq, hps⟩ := h
    cases k with
    | zero => cases hp; exact hq
    | succ k => rw [ih hps hp, add_right_comm]; rfl

/-! ## Steps 1 to 5a of the rule, case by case -/

theorem stepByRule_of_terminal {s : State} (hs : s.status ≠ .running) : stepByRule s = none := if_pos hs

section Step

variable {s : State} (hs : s.status = .running)
include hs

theorem stepByRule_of_pc_outside (hpc : ¬ (0 ≤ s.pc.toInt ∧ s.pc.toInt < s.mem.size)) :
    stepByRule s = some (faultedAs s .outOfBounds) := by
  rw [stepByRule, if_neg (not_not.mpr hs), if_pos (by omega)]

variable {raw : Word} (hraw : s.mem.get? s.pc.toInt = some raw)
include hraw

theorem stepByRule_of_unknown (hop : opcodeOf raw = none) : stepByRule s = some (faultedAs s .invalidOpcode) := by
  have hpc := inBounds_of_get? hraw
  simp only [stepByRule, hraw, Option.getD_some]
  rw [if_neg (not_not.mpr hs), if_neg (by omega), if_pos (opcodeOf_eq_none_iff.mp hop)]

variable {op : Opcode} (hop : opcodeOf raw = some op)
include hop

theorem stepByRule_of_not_fit (hfit : s.pc.toInt + 1 + op.paramCount > s.mem.size) :
    stepByRule s = some (faultedAs s .outOfBounds) := by
  have hpc := inBounds_of_get? hraw
  simp only [stepByRule, hraw, Option.getD_some, countOf_of_opcodeOf hop]
  rw [if_neg (not_not.mpr hs), if_neg (by omega), if_neg (known_of_opcodeOf hop), if_pos hfit]

theorem stepByRule_of_fit (hfit : s.pc.toInt + 1 + op.paramCount ≤ s.mem.size) :
    stepByRule s =
      some (if ruleModesLegal raw.toInt then runByRule s raw.toInt else faultedAs s .invalidAddressingMode) := by
  have hpc := inBounds_of_get? hraw
  rw [ruleModesLegal, apply_ite some]
  simp only [stepByRule, hraw, Option.getD_some, countOf_of_opcodeOf hop]
  rw [if_neg (not_not.mpr hs), if_neg (by omega), if_neg (known_of_opcodeOf hop), if_neg (not_lt.mpr hfit)]
  rfl

end Step

/-! ## Tests and compares as the rule writes them -/

theorem nonZero_iff {v : Word} : nonZero v = true ↔ v.toInt ≠ 0 := by
  rw [nonZero, bne_iff_ne, Ne, ← BitVec.toInt_inj]
  rfl

theorem not_nonZero_iff {v : Word} : (!nonZero v) = true ↔ v.toInt = 0 := by
  rw [Bool.not_eq_true', ← Bool.not_eq_true, nonZero_iff, not_not]

theorem truthWord_decide (p : Prop) [Decidable p] : truthWord (decide p) = BitVec.ofInt 64 (if p then 1 else 0) := by
  by_cases hp : p
  · simp only [hp]; rfl
  · simp only [hp]; rfl

theorem truthWord_signedLess (x y : Word) :
    truthWord (signedLess x y) = BitVec.ofInt 64 (if x.toInt < y.toInt then 1 else 0) := truthWord_decide _

theorem truthWord_beq (x y : Word) :
    truthWord (x == y) = BitVec.ofInt 64 (if x.toInt = y.toInt then 1 else 0) := by
  rw [← truthWord_decide, beq_eq_decide, decide_eq_decide.mpr BitVec.toInt_inj]

/-! ## What is read at `pc`, by the rule's digits -/

namespace ReadAt

variable {s : State} {raw : Word} {i : Instr} (h : ReadAt s raw i)
include h

theorem number : raw.toInt % 100 = i.opcode.number := toInt_mod_of_opcodeOf h.opcode

theorem count : countOf (raw.toInt % 100) = i.params.length := by
  rw [countOf_of_opcodeOf h.opcode, params_length]

/-- The word past the instruction's cells. -/
theorem rulePc_eq : rulePc s raw.toInt = s.pc + BitVec.ofNat 64 (1 + i.params.length) := by
  rw [rulePc, h.count, BitVec.ofInt_add, BitVec.ofInt_add, BitVec.ofInt_toInt, add_assoc, BitVec.ofNat_add]
  rfl

section Parameter

variable {k : Nat} {p : Param} (hp : i.params[k]? = some p)
include hp

theorem ruleCell_eq : ruleCell s (k + 1) = p.raw := by
  rw [ruleCell, Nat.cast_succ, add_comm (k : Int), ← add_assoc, h.cell k p hp]
  rfl

/-- The rule's mode digit of a parameter is the one decoded (30_encoding.md R81). -/
theorem ruleDigit_eq : raw.toInt / 10 ^ (k + 2) % 10 = p.mode.val := by
  obtain ⟨hpos, -⟩ := opcodeOf_eq_some_iff.mp h.opcode
  rw [toInt_of_nonneg hpos, h.modes.mode hp, add_comm 2 k]
  rfl

theorem ruleModeLegal_eq : ruleModeLegal raw.toInt (k + 1) =
    if writes (raw.toInt % 100) (k + 1) then p.writeOk else p.readOk := by
  have h0 : (p.mode.val : Int) = 0 ↔ p.mode = 0 := by rw [Int.natCast_eq_zero, Fin.val_eq_zero_iff]
  have h1 : (p.mode.val : Int) = 1 ↔ p.mode = 1 := by rw [Nat.cast_eq_one, Fin.ext_iff]; rfl
  rw [ruleModeLegal, h.ruleDigit_eq hp]
  simp only [h0, h1, Param.readOk, Param.writeOk, Bool.decide_or, beq_eq_decide]

/-- The rule's step 5b of a legal parameter is the model's resolution. -/
theorem ruleOperand_answers (hl : p.readOk = true) :
    (ruleOperand s raw.toInt (k + 1) = none ∧ resolve s.mem p = .error .outOfBounds) ∨
      ∃ v, ruleOperand s raw.toInt (k + 1) = some v ∧ resolve s.mem p = .ok v := by
  rw [ruleOperand, h.ruleCell_eq hp, h.ruleDigit_eq hp]
  rcases resolve_cases s.mem p with ⟨h1, hr⟩ | ⟨h0, v, hv, hr⟩ | ⟨h0, hb, hr⟩ | ⟨h0, h1, -⟩
  · exact .inr ⟨p.raw, by rw [h1]; rfl, hr⟩
  · exact .inr ⟨v, by rw [h0]; exact hv, hr⟩
  · exact .inl ⟨by rw [h0]; exact Memory.get?_eq_none_iff.mpr hb, hr⟩
  · exact absurd (readOk_iff.mp hl) (not_or.mpr ⟨h0, h1⟩)

/-- The rule's store is the model's, at the same destination. -/
theorem storeAndAdvance_eq (src : InputSource) (z : Int) :
    storeAndAdvance (s.setInput src) p.raw (BitVec.ofInt 64 z) (1 + i.params.length) =
      .next (ruleStore s raw.toInt src (k + 1) z) := by
  rw [storeAndAdvance, ruleStore, h.ruleCell_eq hp, h.rulePc_eq, State.setInput_mem]
  cases s.mem.set? p.raw.toInt (BitVec.ofInt 64 z) with
  | none => rfl
  | some m => rfl

end Parameter

/-- The rule's step 5a is the instruction's legality. -/
theorem ruleModesLegal_eq : ruleModesLegal raw.toInt = i.wellFormed := by
  have hn := h.number
  rw [ruleModesLegal, h.count]
  cases i with
  | add a b dst | mult a b dst | lt a b dst | eq a b dst =>
    have h1 := h.ruleModeLegal_eq (k := 0) rfl
    have h2 := h.ruleModeLegal_eq (k := 1) rfl
    have h3 := h.ruleModeLegal_eq (k := 2) rfl
    rw [hn] at h1 h2 h3
    simp [Instr.params, List.range_succ, h1, h2, h3, Instr.wellFormed, writes, Instr.opcode, Opcode.number,
      Bool.and_assoc]
  | jt a b | jf a b =>
    have h1 := h.ruleModeLegal_eq (k := 0) rfl
    have h2 := h.ruleModeLegal_eq (k := 1) rfl
    rw [hn] at h1 h2
    simp [Instr.params, List.range_succ, h1, h2, Instr.wellFormed, writes, Instr.opcode, Opcode.number]
  | inp a | out a =>
    have h1 := h.ruleModeLegal_eq (k := 0) rfl
    rw [hn] at h1
    simp [Instr.params, List.range_succ, h1, Instr.wellFormed, writes, Instr.opcode, Opcode.number]
  | halt => rfl

/-! ### The nine meanings -/

/-- Two operands resolve by the rule's step 5b, and then the handler runs on their values. -/
theorem withOperands_eq {a b : Param} (ha : i.params[0]? = some a) (hb : i.params[1]? = some b)
    (hla : a.readOk = true) (hlb : b.readOk = true) {handler : Word → Word → Answer}
    (hh : ∀ x y, ruleOperand s raw.toInt 1 = some x → ruleOperand s raw.toInt 2 = some y →
      handler x y = .next (runByRule s raw.toInt)) :
    withOperands true a b s handler = .next (runByRule s raw.toInt) := by
  have hn := h.number
  obtain ⟨hlen, -⟩ := List.getElem?_eq_some_iff.mp hb
  have hop := number_of_two_params (params_length i ▸ hlen)
  rw [withOperands, if_pos rfl, resolveTwo]
  rcases h.ruleOperand_answers ha hla with ⟨h1, hr1⟩ | ⟨x, h1, hr1⟩
  · rw [hr1, runByRule_first_outside (by omega) h1]
    rfl
  · rcases h.ruleOperand_answers hb hlb with ⟨h2, hr2⟩ | ⟨y, h2, hr2⟩
    · rw [hr1, hr2, runByRule_second_outside (by omega) h1 h2]
      rfl
    · rw [hr1, hr2]
      exact hh x y h1 h2

theorem computeAndStore_eq {a b dst : Param} {f : Word → Word → Word} {g : Word → Word → Int}
    (hparams : i.params = [a, b, dst]) (hwf : (a.readOk && b.readOk && dst.writeOk) = true)
    (hf : ∀ x y, f x y = BitVec.ofInt 64 (g x y))
    (hrun : ∀ {x y}, ruleOperand s raw.toInt 1 = some x → ruleOperand s raw.toInt 2 = some y →
      runByRule s raw.toInt = ruleStore s raw.toInt s.input 3 (g x y)) :
    computeAndStore f a b dst s = .next (runByRule s raw.toInt) := by
  rw [computeAndStore, readModeLegal_eq_readOk, readModeLegal_eq_readOk, writeModeLegal_eq_writeOk, hwf]
  simp only [Bool.and_eq_true] at hwf
  obtain ⟨⟨ha, hb⟩, -⟩ := hwf
  refine h.withOperands_eq (by rw [hparams]; rfl) (by rw [hparams]; rfl) ha hb fun x y h1 h2 => ?_
  have hstore := h.storeAndAdvance_eq (k := 2) (p := dst) (by rw [hparams]; rfl) s.input (g x y)
  rw [hparams] at hstore
  rw [hf, hrun h1 h2]
  exact hstore

theorem jumpWhen_eq {a b : Param} {test : Word → Bool} (hparams : i.params = [a, b])
    (hwf : (a.readOk && b.readOk) = true)
    (hrun : ∀ {x y}, ruleOperand s raw.toInt 1 = some x → ruleOperand s raw.toInt 2 = some y →
      runByRule s raw.toInt = { s with pc := if test x then y else rulePc s raw.toInt, waiting := false }) :
    jumpWhen test a b s = .next (runByRule s raw.toInt) := by
  rw [jumpWhen, readModeLegal_eq_readOk, readModeLegal_eq_readOk, hwf]
  obtain ⟨ha, hb⟩ := Bool.and_eq_true_iff.mp hwf
  refine h.withOperands_eq (by rw [hparams]; rfl) (by rw [hparams]; rfl) ha hb fun x y h1 h2 => ?_
  rw [hrun h1 h2, h.rulePc_eq, hparams]
  cases test x <;> rfl

theorem execOut_eq {a : Param} (hi : i = .out a) (hwf : a.readOk = true) :
    execOut a s = .next (runByRule s raw.toInt) := by
  subst hi
  have hop : raw.toInt % 100 = 4 := h.number
  rw [execOut, readModeLegal_eq_readOk, hwf, if_pos rfl]
  rcases h.ruleOperand_answers (k := 0) rfl hwf with ⟨h1, hr⟩ | ⟨x, h1, hr⟩
  · rw [hr, runByRule_first_outside (by omega) h1]
    rfl
  · rw [hr, runByRule_out hop h1, h.rulePc_eq]
    rfl

theorem execInp_eq {dst : Param} (hi : i = .inp dst) (hwf : dst.writeOk = true) :
    execInp dst s = .next (runByRule s raw.toInt) := by
  subst hi
  have hop : raw.toInt % 100 = 3 := h.number
  have h0 := writeOk_iff.mp hwf
  change exec (.inp dst) s = .next (runByRule s raw.toInt)
  rcases hr : s.input.read with ⟨answer, src⟩
  cases answer with
  | wait => rw [execInp_of_wait h0 hr, runByRule_inp_waits hop hr]
  | exhausted => rw [execInp_of_exhausted h0 hr, runByRule_inp_exhausted hop hr]
  | value v =>
    have hstore := h.storeAndAdvance_eq (k := 0) rfl src v.toInt
    rw [BitVec.ofInt_toInt] at hstore
    rw [execInp_of_value h0 hr, runByRule_inp_stores hop hr]
    exact hstore

/-- The meaning of a legal instruction is steps 5b to 7 of the rule. -/
theorem exec_eq (hwf : i.wellFormed = true) : exec i s = .next (runByRule s raw.toInt) := by
  cases i with
  | add a b dst =>
    exact h.computeAndStore_eq (f := addValue) rfl hwf (fun _ _ => rfl) fun h1 h2 => runByRule_add h1 h2 h.number
  | mult a b dst =>
    exact h.computeAndStore_eq (f := multValue) rfl hwf (fun _ _ => rfl) fun h1 h2 => runByRule_mult h1 h2 h.number
  | inp dst => exact h.execInp_eq rfl hwf
  | out a => exact h.execOut_eq rfl hwf
  | jt a b =>
    refine h.jumpWhen_eq (test := nonZero) rfl hwf fun h1 h2 => ?_
    simp only [runByRule_jt h1 h2 h.number, nonZero_iff]
  | jf a b =>
    refine h.jumpWhen_eq (test := fun v => !nonZero v) rfl hwf fun h1 h2 => ?_
    simp only [runByRule_jf h1 h2 h.number, not_nonZero_iff]
  | lt a b dst =>
    exact h.computeAndStore_eq (f := fun x y => truthWord (signedLess x y)) rfl hwf truthWord_signedLess
      fun h1 h2 => runByRule_lt h1 h2 h.number
  | eq a b dst =>
    exact h.computeAndStore_eq (f := fun x y => truthWord (x == y)) rfl hwf truthWord_beq
      fun h1 h2 => runByRule_eq h1 h2 h.number
  | halt => exact congrArg Host.Outcome.next (runByRule_halt h.number).symm

end ReadAt

/-! ## The step -/

/-- A known instruction that fits is judged and executed as the rule does. -/
theorem step_of_fit {s : State} {raw : Word} {op : Opcode} (hs : s.status = .running)
    (hraw : s.mem.get? s.pc.toInt = some raw) (hop : opcodeOf raw = some op)
    (hfit : s.pc.toInt + 1 + op.paramCount ≤ s.mem.size) :
    step s = .next
      (if ruleModesLegal raw.toInt then runByRule s raw.toInt else faultedAs s .invalidAddressingMode) := by
  obtain ⟨i, hf⟩ := fetch_of_fit hraw hop hfit
  have hread := readAt_of_fetch hraw hf
  rw [step_of_fetch hs hf, hread.ruleModesLegal_eq]
  cases hwf : i.wellFormed with
  | true => exact hread.exec_eq hwf
  | false => exact exec_of_not_wellFormed hwf s

/-- Settles O38: the rule's checks and the model's come in the same order, and each ends the step alike. -/
theorem stepIsTheRulesAlgorithm : Obligations.StepIsTheRulesAlgorithm := by
  intro s
  by_cases hs : s.status = .running
  swap
  · rw [step_of_terminal hs, stepByRule_of_terminal hs]
  by_cases hpc : 0 ≤ s.pc.toInt ∧ s.pc.toInt < s.mem.size
  swap
  · rw [step_of_fetch_error hs (fetch_of_pc_outside hpc), stepByRule_of_pc_outside hs hpc]
    rfl
  obtain ⟨raw, hraw⟩ := get?_isSome (Memory.inBounds_iff.mpr hpc)
  cases hop : opcodeOf raw with
  | none =>
    rw [step_of_fetch_error hs (fetch_of_opcodeOf_none hraw hop), stepByRule_of_unknown hs hraw hop]
    rfl
  | some op =>
    by_cases hfit : s.pc.toInt + 1 + op.paramCount ≤ s.mem.size
    · rw [step_of_fit hs hraw hop hfit, stepByRule_of_fit hs hraw hop hfit]
    · have hout := not_le.mp hfit
      rw [step_of_fetch_error hs (fetch_of_not_fit hraw hop hout), stepByRule_of_not_fit hs hraw hop hout]
      rfl

end Sys2Proof.Proofs
end

section
/-! SUPPORT. Instructions of format F3 whose operands have values and whose destination is in memory
(40_execution_engine.md R117, R118), and from them the integer results of ADD and MULT (41_arithmetic.md R140 to R142). -/

namespace Sys2Proof.Proofs

open Sys2Proof.Machine Sys2Proof.Claims

/-! ## Computing and storing -/

section Operands

variable {a b dst : Param} {x y : Word} {s : State} (ha : Operand s.mem a x) (hb : Operand s.mem b y) (hd : dst.mode = 0)
include ha hb hd

theorem computeAndStore_of_operands (f : Word → Word → Word) :
    computeAndStore f a b dst s = storeAndAdvance s dst.raw (f x y) 4 := by
  have hlegal : (readModeLegal a && readModeLegal b && writeModeLegal dst) = true := by
    rw [readModeLegal_of_operand ha, readModeLegal_of_operand hb, writeModeLegal_iff.mpr hd]
    rfl
  have hvalues : resolveTwo s.mem a b = .ok (x, y) :=
    resolveTwo_ok_iff.mpr ⟨operand_iff_resolve.mp ha, operand_iff_resolve.mp hb⟩
  rw [computeAndStore, withOperands, if_pos hlegal, hvalues]

variable (h0 : 0 ≤ dst.raw.toInt) (h1 : dst.raw.toInt < s.mem.size)
include h0 h1

theorem computeAndStore_stores (f : Word → Word → Word) :
    ∃ t, computeAndStore f a b dst s = .next t ∧ StoredAndAdvanced s t dst.raw.toInt (f x y) 4 ∧
      t.input = s.input := by
  rw [computeAndStore_of_operands ha hb hd]
  exact storeAndAdvance_stores (f x y) 4 h0 h1

theorem get?_of_computeAndStore {f : Word → Word → Word} {t : State} (h : computeAndStore f a b dst s = .next t) :
    t.mem.get? dst.raw.toInt = some (f x y) := by
  obtain ⟨u, hu, ⟨hcell, -⟩, -⟩ := computeAndStore_stores ha hb hd h0 h1 f
  cases hu.symm.trans h
  exact hcell

end Operands

/-! ## ADD and MULT -/

/-- The narrowing of 41_arithmetic.md R142 as arithmetic on integers (decision D2). -/
theorem wrap_toInt_eq_bmod (z : Int) : (wrap z).toInt = z.bmod (2 ^ 64) := BitVec.toInt_ofInt z

/-- Settles O19: ADD computes and stores the wrapped sum. -/
theorem addStoresTheSum : Obligations.AddStoresTheSum := by
  intro a b dst x y s ha hb hd h0 h1
  obtain ⟨t, ht, hstored, hinput⟩ := computeAndStore_stores ha hb hd h0 h1 addValue
  exact ⟨t, addValue x y, ht, wrap_toInt_eq_bmod (x.toInt + y.toInt), hstored, hinput⟩

/-- Settles O20: MULT computes and stores the wrapped product. -/
theorem multStoresTheProduct : Obligations.MultStoresTheProduct := by
  intro a b dst x y s ha hb hd h0 h1
  obtain ⟨t, ht, hstored, hinput⟩ := computeAndStore_stores ha hb hd h0 h1 multValue
  exact ⟨t, multValue x y, ht, wrap_toInt_eq_bmod (x.toInt * y.toInt), hstored, hinput⟩

/-- Settles O21: the stored value is the wrapped result, and `wrap` keeps an integer of the signed range. -/
theorem arithmeticIsExactInRange : Obligations.ArithmeticIsExactInRange := by
  intro a b dst x y s t ha hb hd h0 h1
  refine ⟨fun h hlo hhi => ⟨addValue x y, ?_, wrap_toInt ⟨hlo, Int.lt_of_le_sub_one hhi⟩⟩,
    fun h hlo hhi => ⟨multValue x y, ?_, wrap_toInt ⟨hlo, Int.lt_of_le_sub_one hhi⟩⟩⟩
  · exact get?_of_computeAndStore ha hb hd h0 h1 (f := addValue) h
  · exact get?_of_computeAndStore ha hb hd h0 h1 (f := multValue) h

end Sys2Proof.Proofs
end

section
/-! SUPPORT. The ports (42_io.md): IN by what the input source holds, OUT by its operand, and the frames of IN, OUT, JT
and JF (10_state.md R33). -/

namespace Sys2Proof.Proofs

open Sys2Proof.Machine Sys2Proof.Claims

/-! ## OUT -/

/-- Settles O31: a parameter with a value has a legal mode and resolves to it. -/
theorem outAppendsTheOperand : Obligations.OutAppendsTheOperand := fun _ _ _ => execOut_of_operand

/-! ## IN by the items left -/

/-- Settles O25: the port delivers the integer, and the destination takes it. -/
theorem inStoresTheNextValue : Obligations.InStoresTheNextValue := by
  intro dst bad rest z s h0 hitems hbad hz0 hz1 hd0 hd1
  have hread := read_of_item hitems hbad (word?_integer ⟨hz0, hz1⟩)
  obtain ⟨t, ht, hstored, hinput⟩ := execInp_stores h0 hread hd0 hd1
  exact ⟨t, wrap z, ht, wrap_toInt ⟨hz0, hz1⟩, hstored, hinput⟩

/-- Settles O26: a port with only malformed items left that has ended is exhausted. -/
theorem inAtEndTakesInputExhausted : Obligations.InAtEndTakesInputExhausted := by
  intro dst s h0 hbad hended
  have hread := read_of_malformed hbad
  rw [hended] at hread
  exact execInp_of_exhausted h0 hread

/-- Settles O29: the port has consumed the item before the store to the destination fails. -/
theorem inOutsideLosesTheItem : Obligations.InOutsideLosesTheItem := by
  intro dst bad rest z s h0 hitems hbad hz0 hz1 hout
  have hread := read_of_item hitems hbad (word?_integer ⟨hz0, hz1⟩)
  rw [execInp_of_value h0 hread]
  exact storeAndAdvance_outOfBounds (s := s.setInput _) (wrap z) 2 (inBounds_eq_false_iff.mpr hout)

/-! ## Frame of IN -/

/-- `src'` is `src` after some items from its front have been consumed (10_state.md R31). -/
def ConsumesFront (src src' : InputSource) : Prop :=
  ∃ k, src' = { pending := src.pending.drop k, consumed := src.consumed + k, ended := src.ended } ∧
    k ≤ src.pending.length

theorem ConsumesFront.refl (src : InputSource) : ConsumesFront src src := ⟨0, rfl, Nat.zero_le _⟩

/-- A port read consumes items from the front, whatever it answers (20_memory.md R59). -/
theorem read_consumesFront {src src' : InputSource} {answer : PortAnswer} (h : src.read = (answer, src')) :
    ConsumesFront src src' := by
  obtain ⟨bad, -, ⟨x, v, rest, hitems, -, hread⟩ | ⟨hitems, hread⟩⟩ :=
    portReadFrom_cases src.ended src.pending src.consumed
  · cases hread.symm.trans h
    exact ⟨bad.length + 1, by simp [hitems, add_assoc], by simp [hitems]⟩
  · cases hread.symm.trans h
    exact ⟨bad.length, by simp [hitems], by simp [hitems]⟩

/-- What being held, faulting or completing leaves of the state, for IN. -/
theorem execInp_frame {dst : Param} {s t : State} (h : execInp dst s = .next t) :
    ∃ src, ConsumesFront s.input src ∧ (t = (s.setInput src).hold ∨ (∃ r, t = (s.setInput src).raise r) ∨
      ∃ v m, s.mem.set? dst.raw.toInt v = some m ∧ t = ((s.setInput src).setMem m).advance 2) := by
  rcases execInp_cases h with ⟨-, ht⟩ | ⟨-, src, hr, ht⟩ | ⟨-, src, hr, ht⟩ | ⟨-, v, src, hr, -, ht⟩ |
    ⟨-, v, src, m, hr, hm, ht⟩
  · exact ⟨s.input, .refl _, .inr (.inl ⟨_, ht⟩)⟩
  · exact ⟨src, read_consumesFront hr, .inl ht⟩
  · exact ⟨src, read_consumesFront hr, .inr (.inl ⟨_, ht⟩)⟩
  · exact ⟨src, read_consumesFront hr, .inr (.inl ⟨_, ht⟩)⟩
  · exact ⟨src, read_consumesFront hr, .inr (.inr ⟨v, m, hm, ht⟩)⟩

/-- Settles O36: IN is held, faults, or writes its destination and advances; before that only the port has moved. -/
theorem inFrame : Obligations.InFrame := by
  intro dst s t h
  obtain ⟨src, hsrc, rfl | ⟨r, rfl⟩ | ⟨v, m, hm, rfl⟩⟩ := execInp_frame h
  · exact ⟨rfl, rfl, fun _ _ => rfl, hsrc, .inr (.inl ⟨rfl, rfl, rfl, rfl⟩)⟩
  · exact ⟨rfl, rfl, fun _ _ => rfl, hsrc, .inr (.inr ⟨⟨r, rfl⟩, rfl, rfl, rfl⟩)⟩
  · exact ⟨rfl, Memory.set?_size hm, fun _ => Memory.get?_set?_other hm, hsrc, .inl ⟨rfl, rfl, rfl⟩⟩

/-! ## Frame of OUT, JT and JF -/

/-- What faulting or appending leaves of the state, for OUT. -/
theorem execOut_frame {a : Param} {s t : State} (h : execOut a s = .next t) :
    (∃ r, t = s.raise r) ∨ ∃ v, t = (s.portWrite v).advance 2 := by
  rcases execOut_cases h with ⟨-, ht⟩ | ⟨-, ⟨-, ht⟩ | ⟨v, -, ht⟩⟩
  · exact .inl ⟨_, ht⟩
  · exact .inl ⟨_, ht⟩
  · exact .inr ⟨v, ht⟩

/-- A jump faults or writes `pc`: falling through is a write of `pc + 3`. -/
theorem jumpWhen_frame {test : Word → Bool} {a b : Param} {s t : State} (h : jumpWhen test a b s = .next t) :
    (∃ r, t = s.raise r) ∨ ∃ target, t = s.jumpTo target := by
  rcases jumpWhen_cases h with ⟨-, ht⟩ | ⟨-, ⟨-, ht⟩ | ⟨va, vb, -, -, ht⟩⟩
  · exact .inl ⟨_, ht⟩
  · exact .inl ⟨_, ht⟩
  · split at ht
    · exact .inr ⟨vb, ht⟩
    · exact .inr ⟨s.pc + 3, ht⟩

/-- JT and JF are one operation, with two tests. -/
theorem exec_jump {i : Instr} {a b : Param} (s : State) (hi : i ∈ [Instr.jt a b, .jf a b]) :
    ∃ test, exec i s = jumpWhen test a b s := by
  rcases List.mem_pair.mp hi with rfl | rfl
  · exact ⟨nonZero, rfl⟩
  · exact ⟨fun v => !nonZero v, rfl⟩

/-- Settles O37: OUT ends in a fault or an appended value, and a jump in a fault or a new `pc`. -/
theorem outAndJumpFrame : Obligations.OutAndJumpFrame := by
  intro i a b s t hi h
  rcases List.mem_cons.mp hi with rfl | hjump
  · rcases execOut_frame h with ⟨r, rfl⟩ | ⟨v, rfl⟩
    · exact ⟨rfl, rfl, rfl, fun _ => rfl, .inr ⟨⟨r, rfl⟩, rfl, rfl⟩⟩
    · exact ⟨rfl, rfl, rfl, fun hne => absurd rfl hne, .inl rfl⟩
  · obtain ⟨test, htest⟩ := exec_jump s hjump
    rcases jumpWhen_frame (htest ▸ h) with ⟨r, rfl⟩ | ⟨target, rfl⟩
    · exact ⟨rfl, rfl, rfl, fun _ => rfl, .inr ⟨⟨r, rfl⟩, rfl, rfl⟩⟩
    · exact ⟨rfl, rfl, rfl, fun _ => rfl, .inl rfl⟩

end Sys2Proof.Proofs
end

section
/-! SUPPORT. JT and JF of operands that have values (43_jump.md R160 to R162): the test of the first value picks the second
value, whatever it is (decision D13), or the next instruction. -/

namespace Sys2Proof.Proofs

open Sys2Proof.Machine Sys2Proof.Claims

/-- Both operands have values, so both modes are legal and both resolve, also where the jump is not taken
(40_execution_engine.md R117). -/
theorem jumpWhen_of_operands {a b : Param} {x y : Word} {s : State} (ha : Operand s.mem a x) (hb : Operand s.mem b y)
    (test : Word → Bool) :
    jumpWhen test a b s = .next { s with pc := if test x then y else s.pc + 3, waiting := false } := by
  have hlegal : (readModeLegal a && readModeLegal b) = true :=
    Bool.and_eq_true_iff.mpr ⟨readModeLegal_of_operand ha, readModeLegal_of_operand hb⟩
  have hvalues : resolveTwo s.mem a b = .ok (x, y) :=
    resolveTwo_ok_iff.mpr ⟨operand_iff_resolve.mp ha, operand_iff_resolve.mp hb⟩
  rw [jumpWhen, withOperands, if_pos hlegal, hvalues]
  change Host.Outcome.next (if test x then s.jumpTo y else s.advance 3) = _
  cases test x with
  | true => rfl
  | false => rfl

/-- Settles O32: JT's test of its first operand is "not 0". -/
theorem jtJumpsOnNonZero : Obligations.JtJumpsOnNonZero := by
  intro a b x y s ha hb
  have h : exec (.jt a b) s = _ := jumpWhen_of_operands ha hb nonZero
  simpa only [nonZero_iff] using h

/-- Settles O33: JF's test of its first operand is "0". -/
theorem jfJumpsOnZero : Obligations.JfJumpsOnZero := by
  intro a b x y s ha hb
  have h : exec (.jf a b) s = _ := jumpWhen_of_operands ha hb fun v => !nonZero v
  simpa only [not_nonZero_iff] using h

end Sys2Proof.Proofs
end

section
/-! SUPPORT. LT and EQ (44_compare.md R170, R171): the stored word as an `if` on signed values, and from it the three
comparisons of one pair of operands. -/

namespace Sys2Proof.Proofs

open Sys2Proof.Machine Sys2Proof.Claims

/-! ## The stored word -/

/-- The number 1 or 0, taken as a word. -/
theorem ofInt_ite_one_zero (p : Prop) [Decidable p] :
    BitVec.ofInt 64 (if p then 1 else 0) = if p then 1 else 0 :=
  apply_ite (BitVec.ofInt 64) p 1 0

theorem truthWord_signedLess_eq_ite (x y : Word) : truthWord (signedLess x y) = if x.toInt < y.toInt then 1 else 0 :=
  (truthWord_signedLess x y).trans (ofInt_ite_one_zero _)

theorem truthWord_beq_eq_ite (x y : Word) : truthWord (x == y) = if x.toInt = y.toInt then 1 else 0 :=
  (truthWord_beq x y).trans (ofInt_ite_one_zero _)

/-! ## LT and EQ -/

/-- Settles O22: LT computes and stores the truth word of the signed comparison. -/
theorem ltStoresSignedLess : Obligations.LtStoresSignedLess := by
  intro a b dst x y s ha hb hd h0 h1
  rw [← truthWord_signedLess_eq_ite]
  exact computeAndStore_stores ha hb hd h0 h1 fun x y => truthWord (signedLess x y)

/-- Settles O23: EQ computes and stores the truth word of equality. -/
theorem eqStoresEquality : Obligations.EqStoresEquality := by
  intro a b dst x y s ha hb hd h0 h1
  rw [← truthWord_beq_eq_ite]
  exact computeAndStore_stores ha hb hd h0 h1 fun x y => truthWord (x == y)

/-! ## The three comparisons of one pair -/

/-- Settles O24: each comparison stores 1 exactly if it holds, and by trichotomy exactly one of the three does. -/
theorem exactlyOneCompareStoresOne : Obligations.ExactlyOneCompareStoresOne := by
  intro a b dst x y s ha hb hd h0 h1
  obtain ⟨t1, ht1, ⟨hv1, -⟩, -⟩ := ltStoresSignedLess a b dst x y s ha hb hd h0 h1
  obtain ⟨t2, ht2, ⟨hv2, -⟩, -⟩ := eqStoresEquality a b dst x y s ha hb hd h0 h1
  obtain ⟨t3, ht3, ⟨hv3, -⟩, -⟩ := ltStoresSignedLess b a dst y x s hb ha hd h0 h1
  refine ⟨t1, t2, t3, _, _, _, ht1, ht2, ht3, hv1, hv2, hv3, ?_⟩
  rcases lt_trichotomy x.toInt y.toInt with hlt | heq | hgt
  · exact .inl ⟨if_pos hlt, if_neg hlt.ne, if_neg hlt.not_gt⟩
  · exact .inr (.inl ⟨if_neg heq.not_lt, if_pos heq, if_neg heq.not_gt⟩)
  · exact .inr (.inr ⟨if_neg hgt.not_gt, if_neg hgt.ne', if_pos hgt⟩)

end Sys2Proof.Proofs
end

section
/-! SUPPORT. HALT (45_halt.md R180): the one instruction with nothing to resolve and nothing that can fault. -/

namespace Sys2Proof.Proofs

open Sys2Proof.Machine

/-- HALT's meaning in terms of the state operation `State.stop` (45_halt.md R180). -/
theorem exec_halt (s : State) : exec .halt s = .next s.stop := rfl

/-- Settles O34: HALT is `State.stop`, a record update that names only the status and the wait. -/
theorem haltOnlySetsHalted : Obligations.HaltOnlySetsHalted := exec_halt

end Sys2Proof.Proofs
end

section
/-! SUPPORT. Exceptions (60_exceptions.md): a destination outside memory, the malformed items no one sees, and the
origins of the four fault reasons. -/

namespace Sys2Proof.Proofs

open Sys2Proof.Machine Sys2Proof.Claims

/-! ## A destination outside memory (R191 (d)) -/

/-- Settles O18: the operands are resolved, and the store to the destination fails. -/
theorem destinationOutsideTakesOutOfBounds : Obligations.DestinationOutsideTakesOutOfBounds := by
  intro a b dst x y s ha hb hd hout
  have hfault (f : Word → Word → Word) : computeAndStore f a b dst s = .next (s.raise .outOfBounds) :=
    (computeAndStore_of_operands ha hb hd f).trans
      (storeAndAdvance_outOfBounds (f x y) 4 (inBounds_eq_false_iff.mpr hout))
  exact ⟨hfault addValue, hfault multValue, hfault fun x y => truthWord (signedLess x y),
    hfault fun x y => truthWord (x == y)⟩

/-! ## Malformed items (R208) -/

/-- A legal IN sees of its source what the port answers, and nothing else. -/
theorem exec_inp_congr_of_read {dst : Param} {src src' : InputSource} (h0 : dst.mode = 0) (s : State)
    (h : src.read = src'.read) : exec (.inp dst) (s.setInput src) = exec (.inp dst) (s.setInput src') := by
  rcases hr : src.read with ⟨answer, left⟩
  have hr' := h.symm.trans hr
  cases answer with
  | value v =>
    rw [execInp_of_value (s := s.setInput src) h0 hr, execInp_of_value (s := s.setInput src') h0 hr']
    rfl
  | exhausted =>
    rw [execInp_of_exhausted (s := s.setInput src) h0 hr, execInp_of_exhausted (s := s.setInput src') h0 hr']
    rfl
  | wait =>
    rw [execInp_of_wait (s := s.setInput src) h0 hr, execInp_of_wait (s := s.setInput src') h0 hr']
    rfl

/-- Settles O30: the port answers the two sources alike. -/
theorem malformedItemsAreInvisible : Obligations.MalformedItemsAreInvisible := fun _ _ items s h0 hbad =>
  exec_inp_congr_of_read h0 s (portReadFrom_malformed hbad s.input.ended items s.input.consumed)

/-! ## Origins of the fault reasons (R190 to R194) -/

/-- What `s` has where its step faults with the given reason. -/
def FaultOrigin (s : State) : FaultReason → Prop
  | .outOfBounds => OutOfBoundsCause s
  | .invalidOpcode => ∃ raw, s.mem.get? s.pc.toInt = some raw ∧
      (raw.toInt < 0 ∨ raw.toInt % 100 ∉ [1, 2, 3, 4, 5, 6, 7, 8, 99])
  | .invalidAddressingMode => ∃ i, s.fetch = .ok i ∧ ¬ LegalModes i
  | .inputExhausted => (∃ dst, s.fetch = .ok (.inp dst) ∧ dst.mode = 0) ∧ s.input.ended = true ∧
      ∀ x ∈ s.input.pending, Malformed x

/-- Steps 2 to 4 fault for a `pc` outside memory, an unknown word, or an instruction that does not fit. -/
theorem faultOrigin_of_fetch_error {s : State} {r : FaultReason} (h : s.fetch = .error r) : FaultOrigin s r := by
  by_cases hpc : 0 ≤ s.pc.toInt ∧ s.pc.toInt < s.mem.size
  swap
  · cases (fetch_of_pc_outside hpc).symm.trans h
    exact .inl hpc
  obtain ⟨raw, hraw⟩ := get?_isSome (Memory.inBounds_iff.mpr hpc)
  cases hop : opcodeOf raw with
  | none =>
    cases (fetch_of_opcodeOf_none hraw hop).symm.trans h
    exact ⟨raw, hraw, opcodeOf_eq_none_iff.mp hop⟩
  | some op =>
    by_cases hfit : s.pc.toInt + 1 + op.paramCount ≤ s.mem.size
    · obtain ⟨i, hi⟩ := fetch_of_fit hraw hop hfit
      cases hi.symm.trans h
    · cases (fetch_of_not_fit hraw hop (not_le.mp hfit)).symm.trans h
      exact .inr (.inl ⟨raw, op, hraw, hop, not_le.mp hfit⟩)

/-- The port is exhausted only by a source that has ended with no well-formed item left (20_memory.md R59). -/
theorem ended_of_read_exhausted {src src' : InputSource} (h : src.read = (.exhausted, src')) :
    src.ended = true ∧ ∀ x ∈ src.pending, Malformed x := by
  obtain ⟨bad, hbad, ⟨x, v, rest, -, -, hread⟩ | ⟨hitems, hread⟩⟩ :=
    portReadFrom_cases src.ended src.pending src.consumed
  · cases hread.symm.trans h
  · refine ⟨?_, fun x hx => word?_eq_none_iff.mp (hbad x (hitems ▸ hx))⟩
    by_contra hopen
    rw [if_neg hopen] at hread
    cases hread.symm.trans h

section Legal

variable {s t : State} {i : Instr} {r : FaultReason} (hf : s.fetch = .ok i) (hlegal : LegalModes i)
include hf hlegal

/-- R191 (c). -/
theorem faultOrigin_of_operandOutside {p : Param} (hp : p ∈ readParams i) (hout : OperandOutside s.mem p) :
    FaultOrigin s .outOfBounds :=
  .inr (.inr (.inl ⟨i, hf, hlegal, p, hp, hout.imp_right inBounds_eq_false_iff.mp⟩))

theorem faultOrigin_of_operandsOutside {a b : Param} (ha : a ∈ readParams i) (hb : b ∈ readParams i)
    (hout : OperandOutside s.mem a ∨ OperandOutside s.mem b) : FaultOrigin s .outOfBounds :=
  hout.elim (faultOrigin_of_operandOutside hf hlegal ha) (faultOrigin_of_operandOutside hf hlegal hb)

/-- R191 (d). -/
theorem faultOrigin_of_destinationOutside {dst : Param} (hd : destination i = some dst)
    (hout : s.mem.inBounds dst.raw.toInt = false) : FaultOrigin s .outOfBounds :=
  .inr (.inr (.inr ⟨i, dst, hf, hlegal, hd, inBounds_eq_false_iff.mp hout⟩))

variable (hs : s.status = .running) (hr : t.status = .faulted r)
include hs hr

theorem faultOrigin_of_computeAndStore {f : Word → Word → Word} {a b dst : Param} (hreads : readParams i = [a, b])
    (hd : destination i = some dst) (h : computeAndStore f a b dst s = .next t) : FaultOrigin s r := by
  have ha : a ∈ readParams i := by simp [hreads]
  have hb : b ∈ readParams i := by simp [hreads]
  rcases computeAndStore_cases h with ⟨hill, -⟩ | ⟨-, ⟨hout, rfl⟩ | ⟨hout, rfl⟩ | ⟨-, -, m, -, -, -, rfl⟩⟩
  · rw [readModeLegal_iff.mpr (hlegal.1 a ha), readModeLegal_iff.mpr (hlegal.1 b hb),
      writeModeLegal_iff.mpr (hlegal.2 dst hd)] at hill
    cases hill
  · cases hr
    exact faultOrigin_of_operandsOutside hf hlegal ha hb hout
  · cases hr
    exact faultOrigin_of_destinationOutside hf hlegal hd hout
  · cases hs.symm.trans hr

theorem faultOrigin_of_jumpWhen {test : Word → Bool} {a b : Param} (hreads : readParams i = [a, b])
    (h : jumpWhen test a b s = .next t) : FaultOrigin s r := by
  have ha : a ∈ readParams i := by simp [hreads]
  have hb : b ∈ readParams i := by simp [hreads]
  rcases jumpWhen_cases h with ⟨hill, -⟩ | ⟨-, ⟨hout, rfl⟩ | ⟨va, vb, -, -, rfl⟩⟩
  · rw [readModeLegal_iff.mpr (hlegal.1 a ha), readModeLegal_iff.mpr (hlegal.1 b hb)] at hill
    cases hill
  · cases hr
    exact faultOrigin_of_operandsOutside hf hlegal ha hb hout
  · split at hr <;> cases hs.symm.trans hr

theorem faultOrigin_of_execOut {a : Param} (hreads : readParams i = [a]) (h : execOut a s = .next t) :
    FaultOrigin s r := by
  have ha : a ∈ readParams i := by simp [hreads]
  rcases execOut_cases h with ⟨hill, -⟩ | ⟨-, ⟨hout, rfl⟩ | ⟨v, -, rfl⟩⟩
  · cases hill.symm.trans (readModeLegal_iff.mpr (hlegal.1 a ha))
  · cases hr
    exact faultOrigin_of_operandOutside hf hlegal ha hout
  · cases hs.symm.trans hr

theorem faultOrigin_of_execInp {dst : Param} (hi : i = .inp dst) (h : execInp dst s = .next t) : FaultOrigin s r := by
  subst hi
  rcases execInp_cases h with ⟨hill, -⟩ | ⟨-, src, -, rfl⟩ | ⟨h0, src, hread, rfl⟩ | ⟨-, v, src, -, hout, rfl⟩ |
    ⟨-, v, src, m, -, -, rfl⟩
  · exact absurd (hlegal.2 dst rfl) hill
  · cases hs.symm.trans hr
  · cases hr
    exact ⟨⟨dst, hf, h0⟩, ended_of_read_exhausted hread⟩
  · cases hr
    exact faultOrigin_of_destinationOutside hf hlegal rfl hout
  · cases hs.symm.trans hr

end Legal

/-- Steps 5 to 7 fault for an illegal mode, an address outside memory, or an exhausted input. -/
theorem faultOrigin_of_exec {s t : State} {i : Instr} {r : FaultReason} (hs : s.status = .running)
    (hf : s.fetch = .ok i) (h : exec i s = .next t) (hr : t.status = .faulted r) : FaultOrigin s r := by
  by_cases hlegal : LegalModes i
  swap
  · cases (illegalModeTakesInvalidAddressingMode i s hlegal).symm.trans h
    cases hr
    exact ⟨i, hf, hlegal⟩
  cases i with
  | add => exact faultOrigin_of_computeAndStore hf hlegal hs hr (f := addValue) rfl rfl h
  | mult => exact faultOrigin_of_computeAndStore hf hlegal hs hr (f := multValue) rfl rfl h
  | inp => exact faultOrigin_of_execInp hf hlegal hs hr rfl h
  | out => exact faultOrigin_of_execOut hf hlegal hs hr rfl h
  | jt => exact faultOrigin_of_jumpWhen hf hlegal hs hr (test := nonZero) rfl h
  | jf => exact faultOrigin_of_jumpWhen hf hlegal hs hr (test := fun v => !nonZero v) rfl h
  | lt =>
    exact faultOrigin_of_computeAndStore hf hlegal hs hr (f := fun x y => truthWord (signedLess x y)) rfl rfl h
  | eq => exact faultOrigin_of_computeAndStore hf hlegal hs hr (f := fun x y => truthWord (x == y)) rfl rfl h
  | halt =>
    cases h
    cases hr

theorem faultOrigin_of_step {s t : State} {r : FaultReason} (h : step s = .next t) (hr : t.status = .faulted r) :
    FaultOrigin s r := by
  obtain ⟨hs, ⟨i, hf, he⟩ | ⟨r', hf, rfl⟩⟩ := step_cases h
  · exact faultOrigin_of_exec hs hf he hr
  · cases hr
    exact faultOrigin_of_fetch_error hf

/-- Settles O40: the fault is the fetch's or the fetched instruction's, and HALT never faults. -/
theorem faultReasonOrigins : Obligations.FaultReasonOrigins := by
  intro s t r h hr
  have horigin := faultOrigin_of_step h hr
  have hhalt : s.fetch ≠ .ok .halt := by
    intro hf
    cases hr.symm.trans ((haltedExactlyByHalt s t (step_status_running h) h).mpr hf)
  refine ⟨?_, ?_, ?_, ?_, hhalt⟩ <;>
  · rintro rfl
    exact horigin

end Sys2Proof.Proofs
end

section
/-! SUPPORT. The host's side of the machine: the text it constructs from (70_reset_and_hazards.md R231), and what its
commands do between steps (R234, R235) and during a wait (R244). -/

namespace Sys2Proof.Proofs

open Sys2Proof.Machine Sys2Proof.Claims

/-! ## The program text (R231) -/

/-- Settles O57: the parser splits at the commas and reads each field as a numeral. -/
theorem parserAcceptsExactlyTheGrammar : Obligations.ParserAcceptsExactlyTheGrammar := fun _ _ =>
  parseText_eq_some_iff

/-- The library's decimal digits are the grammar's digit characters. -/
theorem mem_digitChars_of_mem_toDigits {n : Nat} {c : Char} (h : c ∈ Nat.toDigits 10 n) : c ∈ digitChars :=
  mem_digitChars_iff.mpr (Char.isDigit_iff_toNat.mp (Nat.isDigit_of_mem_toDigits (by decide) (by decide) h))

/-- The rule's value of a run of digits is the library's. -/
theorem digitsValue_eq_ofDigitChars (ds : List Char) : digitsValue ds = Nat.ofDigitChars 10 ds 0 :=
  Nat.ofDigitChars_eq_foldl.symm

/-- The decimal digits of a number have that number's value. -/
theorem digitsValue_toDigits (n : Nat) : digitsValue (Nat.toDigits 10 n) = n :=
  (digitsValue_eq_ofDigitChars _).trans Nat.ofDigitChars_ten_toDigits

/-- A written integer is a numeral of its own value, with the minus sign exactly where it is negative. -/
theorem numeral_written (z : Int) : Numeral (written z) z := by
  refine ⟨Nat.toDigits 10 z.natAbs, Nat.toDigits_ne_nil, fun _ => mem_digitChars_of_mem_toDigits, ?_⟩
  rw [written, digitsValue_toDigits]
  split
  · exact .inr ⟨rfl, by omega⟩
  · exact .inl ⟨rfl, by omega⟩

/-- Settles O54: the written integers are the fields of a program text. -/
theorem programTextReadsBack : Obligations.ProgramTextReadsBack := by
  intro zs hne
  have hfields : List.Forall₂ Numeral (zs.map written) zs :=
    List.forall₂_map_left_iff.mpr (List.forall₂_same.mpr fun z _ => numeral_written z)
  exact parseText_eq_some_iff.mpr ⟨_, by simpa using hne, hfields, rfl⟩

/-! ## Host access between steps (R235) -/

theorem hostGet_of_get? {s : State} {addr w : Word} (hw : s.waiting = false) (h : s.mem.get? addr.toInt = some w) :
    hostGet s addr = .value w := by
  simp [hostGet, hw, h]

theorem hostSet_of_set? {s : State} {addr v : Word} {m : Memory} (hw : s.waiting = false)
    (h : s.mem.set? addr.toInt v = some m) : hostSet s addr v = (s.setMem m, .done) := by
  simp [hostSet, hw, h]

/-- Settles O55: between steps the two commands are one read and one write of the Memory Store, by its contract. -/
theorem hostAccessIsBoundsChecked : Obligations.HostAccessIsBoundsChecked := by
  intro s addr v hw
  obtain ⟨-, hinside, houtside⟩ := memoryStoreContract
  constructor
  · rintro ⟨h0, h1⟩
    obtain ⟨⟨w, hget⟩, m, hset, hsize, hself, hother⟩ := hinside s.mem addr.toInt v h0 h1
    exact ⟨⟨w, hget, hostGet_of_get? hw hget⟩, m, hostSet_of_set? hw hset, hsize, hself, hother⟩
  · intro hout
    obtain ⟨-, -, hreplies⟩ := houtside s addr v 0 hout
    exact hreplies hw

/-! ## Host commands during a wait (R244) -/

theorem hostGet_of_waiting {s : State} (hw : s.waiting = true) (addr : Word) : hostGet s addr = .noMove := if_pos hw

theorem hostSet_of_waiting {s : State} (hw : s.waiting = true) (addr v : Word) : hostSet s addr v = (s, .noMove) :=
  if_pos hw

/-- Settles O60: each of the four commands asks first whether a step is in progress. -/
theorem noCommandDuringTheWait : Obligations.NoCommandDuringTheWait := by
  intro s addr v fuel hheld
  have h : s.held = true := held_iff_Held.mpr hheld
  obtain ⟨-, hw⟩ := hheld
  exact ⟨hostGet_of_waiting hw addr, hostSet_of_waiting hw addr v, hostStep_of_held h, hostRun_of_held fuel h⟩

/-! ## The invariant over host moves (R234) -/

/-- A write where no step is in progress keeps the invariant: there is no IN waiting that it could change. -/
theorem inv_setMem {s : State} {m : Memory} {addr : Int} {v : Word} (hinv : s.Inv) (hw : s.waiting = false)
    (hset : s.mem.set? addr v = some m) : (s.setMem m).Inv :=
  ⟨Memory.set?_wf hset hinv.1, fun hwait => by simp [hw] at hwait⟩

/-- The invariant does not speak of the input source. -/
theorem inv_setInput {s : State} (hinv : s.Inv) (src : InputSource) : (s.setInput src).Inv := hinv

/-- Settles O50: the invariant is kept by every step, by every SetMemory that is a move, and by a new input source. -/
theorem hostMovesKeepTheInvariant : Obligations.HostMovesKeepTheInvariant := fun _ mv hinv =>
  afterMove_keeps stepKeepsTheInvariant (fun _ _ _ _ => inv_setMem) (fun _ src h => inv_setInput h src) hinv mv

end Sys2Proof.Proofs
end

section
/-! SUPPORT. The negative instruction word (30_encoding.md R82): no row of the table is read, so its digits do not matter. -/

namespace Sys2Proof.Proofs

open Sys2Proof.Machine Sys2Proof.Claims

/-- Settles O5: a negative word has no opcode, and the fetch's fault ends the step (the spec's decision D3). -/
theorem negativeWordTakesInvalidOpcode : Obligations.NegativeWordTakesInvalidOpcode := fun _ _ hs hraw hneg =>
  step_of_fetch_error hs (fetch_of_opcodeOf_none hraw (opcodeOf_eq_none_iff.mpr (.inl hneg)))

end Sys2Proof.Proofs
end
